-- ==== Sys2Proof/Word.lean ====
section
/-! DEFINITION. The widths of the CEMU RV64I core (spec/00_scope.md R10, R17). -/

namespace Sys2Proof

/-- A general register, the program counter or an address: 64 bits (R10). -/
abbrev Word := BitVec 64

/-- A byte of memory (R10). -/
abbrev Byte := BitVec 8

/-- An instruction word: 32 bits, the only length (R10, R70). -/
abbrev InstWord := BitVec 32

/-- A register index field, 0 to 31 (R71). -/
abbrev RegIdx := BitVec 5

/-- The access widths of the memory bus (R10, R13): 1, 2, 4 and 8 bytes. -/
inductive Width where
  | byte | half | word | double
  deriving DecidableEq, Repr

/-- The number `n` of bytes an access of this width moves (R40). -/
def Width.bytes : Width → Nat
  | .byte => 1
  | .half => 2
  | .word => 4
  | .double => 8

end Sys2Proof
end

