-- ==== Sys2Proof/Config.lean ====
section
/-! DEFINITION. The open parameters of spec/00_scope.md R11 and the values this model's `exec`, `step` and reset state take. -/

namespace Sys2Proof

/-- `DRAM_BASE` and `DRAM_SIZE` of R11: parameters "which a model takes as arguments" and which "are not state"
(spec/10_state.md R20). The memory operations, `execAt` and `stepAt` (Machine/AtDram.lean) take them so. -/
structure Dram where
  /-- `DRAM_BASE`, the first address of DRAM and the reset value of `pc`. -/
  base : Word
  /-- `DRAM_SIZE`, the length of DRAM in bytes. -/
  size : Nat
  deriving DecidableEq, Repr

/-- The constraints R11 puts on `DRAM_BASE` and `DRAM_SIZE`. -/
abbrev Dram.Ok (d : Dram) : Prop :=
  d.base.toNat % 2 = 0 ∧ d.base.toNat + d.size ≤ 2 ^ 64 ∧ 4 ≤ d.size

/-- The four open parameters of R11. `State.boot` (Machine/Boot.lean) takes them as an argument. -/
structure Params where
  /-- `DRAM_BASE` and `DRAM_SIZE`. -/
  dram : Dram
  /-- `MEM_INIT(k)` for `0 <= k < DRAM_SIZE`: the contents of DRAM before the first step. -/
  memInit : Nat → Byte
  /-- `XREG_RESET(i)` for `i` in 1..31; the entry for `x0` is not used. -/
  xregReset : RegIdx → Word

/-- `DRAM_BASE` and `DRAM_SIZE` of `exec`, `step` and the reset state. DESIGN CHOICE (log entry 1): the base R11 suggests and
the size of the spec's test vectors. -/
def Config.dram : Dram where
  base := 0x80000000#64
  size := 0x100000

/-- What a byte of memory that is not listed reads as. DESIGN CHOICE (log entry 3). -/
def Config.unlistedByte : Byte := 0#8

/-- `x1` to `x31` of the reset state. DESIGN CHOICE (log entry 2): the value R36 suggests. -/
def Config.xregReset : Word := 0#64

/-- The parameters of the reset state, in one place. -/
def Config.params : Params where
  dram := Config.dram
  memInit := fun _ => Config.unlistedByte
  xregReset := fun _ => Config.xregReset

end Sys2Proof
end

