-- ==== Sys2Proof/Decode.lean ====
section
/-! DEFINITION. The decoder (spec/30_encoding.md R70 to R91), total on every word and every byte list, and after it the
encoder, the mnemonics and the opcode table of R84. Every bit position and code here is the spec's own general-knowledge
adoption of the standard RV64I encoding (PRESUMED, log entry 5). -/

namespace Sys2Proof

/-! ### Fields (R71) -/

/-- `opcode = inst[6:0]`. -/
def opcodeOf (w : InstWord) : BitVec 7 := w.extractLsb' 0 7
/-- `rd = inst[11:7]`. -/
def rdOf (w : InstWord) : RegIdx := w.extractLsb' 7 5
/-- `funct3 = inst[14:12]`. -/
def funct3Of (w : InstWord) : BitVec 3 := w.extractLsb' 12 3
/-- `rs1 = inst[19:15]`. -/
def rs1Of (w : InstWord) : RegIdx := w.extractLsb' 15 5
/-- `rs2 = inst[24:20]`. -/
def rs2Of (w : InstWord) : RegIdx := w.extractLsb' 20 5
/-- `funct7 = inst[31:25]`. -/
def funct7Of (w : InstWord) : BitVec 7 := w.extractLsb' 25 7
/-- `shamt6 = inst[25:20]` (R79). -/
def shamt6Of (w : InstWord) : BitVec 6 := w.extractLsb' 20 6
/-- `shamt5 = inst[24:20]` (R79). -/
def shamt5Of (w : InstWord) : BitVec 5 := w.extractLsb' 20 5

/-- A field placed with its bit 0 at bit `lo` of a wider word, zeros elsewhere. -/
def place {n k : Nat} (lo : Nat) (f : BitVec n) : BitVec k := f.setWidth k <<< lo

/-! ### Encoded immediates (R74 to R78), before sign extension -/

/-- `inst[31:20]` (R74). -/
def immIOf (w : InstWord) : BitVec 12 := w.extractLsb' 20 12
/-- `inst[31:25]` is imm[11:5] and `inst[11:7]` is imm[4:0] (R75). -/
def immSOf (w : InstWord) : BitVec 12 :=
  place 5 (w.extractLsb' 25 7) ||| place 0 (w.extractLsb' 7 5)
/-- `inst[31]` is imm[12], `inst[7]` imm[11], `inst[30:25]` imm[10:5], `inst[11:8]` imm[4:1]; imm[0] is 0 (R72, R76). -/
def immBOf (w : InstWord) : BitVec 13 :=
  place 12 (w.extractLsb' 31 1) ||| place 11 (w.extractLsb' 7 1) ||| place 5 (w.extractLsb' 25 6) ||| place 1 (w.extractLsb' 8 4)
/-- `inst[31:12]` (R77). -/
def immUOf (w : InstWord) : BitVec 20 := w.extractLsb' 12 20
/-- `inst[31]` is imm[20], `inst[19:12]` imm[19:12], `inst[20]` imm[11], `inst[30:21]` imm[10:1]; imm[0] is 0 (R72, R78). -/
def immJOf (w : InstWord) : BitVec 21 :=
  place 20 (w.extractLsb' 31 1) ||| place 12 (w.extractLsb' 12 8) ||| place 11 (w.extractLsb' 20 1) ||| place 1 (w.extractLsb' 21 10)

/-! ### The decoder (R82, R83) -/

/-- Why the decoder matches no instruction: the items of R86, and a byte list shorter than one word. Every one of the
first nine raises `IllegalInstruction`. -/
inductive Reject where
  /-- Item 1: `inst[6:0]` is none of the 12 major opcodes of R81. -/
  | noSuchOpcode
  /-- Item 2: JALR opcode with another funct3. -/
  | jalrFunct3
  /-- Item 3: BRANCH opcode with funct3 010 or 011. -/
  | branchFunct3
  /-- Item 4: LOAD opcode with funct3 111. -/
  | loadFunct3
  /-- Item 5: STORE opcode with funct3 100 to 111. -/
  | storeFunct3
  /-- Item 6: MISC-MEM opcode with another funct3 (FENCE.I among them). -/
  | miscMemFunct3
  /-- Item 7: OP opcode with a (funct7, funct3) pair not in R83 (the M extension among them). -/
  | opFunct
  /-- Item 8: OP-IMM-32 opcode with a (funct7, funct3) not in R83 (R88). -/
  | opImm32Funct
  /-- Item 9: OP-32 opcode with a (funct7, funct3) pair not in R83. -/
  | op32Funct
  /-- Fewer than four bytes were given; a step never does this (R70). -/
  | truncated
  deriving DecidableEq, Repr

/-- BRANCH, `1100011` (R83). -/
def decodeBranch (w : InstWord) : Except Reject Instr :=
  let f3 := funct3Of w
  if f3 = 0b000#3 then .ok (.beq (rs1Of w) (rs2Of w) (immBOf w))
  else if f3 = 0b001#3 then .ok (.bne (rs1Of w) (rs2Of w) (immBOf w))
  else if f3 = 0b100#3 then .ok (.blt (rs1Of w) (rs2Of w) (immBOf w))
  else if f3 = 0b101#3 then .ok (.bge (rs1Of w) (rs2Of w) (immBOf w))
  else if f3 = 0b110#3 then .ok (.bltu (rs1Of w) (rs2Of w) (immBOf w))
  else if f3 = 0b111#3 then .ok (.bgeu (rs1Of w) (rs2Of w) (immBOf w))
  else .error .branchFunct3

/-- LOAD, `0000011` (R83). -/
def decodeLoad (w : InstWord) : Except Reject Instr :=
  let f3 := funct3Of w
  if f3 = 0b000#3 then .ok (.lb (rdOf w) (rs1Of w) (immIOf w))
  else if f3 = 0b001#3 then .ok (.lh (rdOf w) (rs1Of w) (immIOf w))
  else if f3 = 0b010#3 then .ok (.lw (rdOf w) (rs1Of w) (immIOf w))
  else if f3 = 0b011#3 then .ok (.ld (rdOf w) (rs1Of w) (immIOf w))
  else if f3 = 0b100#3 then .ok (.lbu (rdOf w) (rs1Of w) (immIOf w))
  else if f3 = 0b101#3 then .ok (.lhu (rdOf w) (rs1Of w) (immIOf w))
  else if f3 = 0b110#3 then .ok (.lwu (rdOf w) (rs1Of w) (immIOf w))
  else .error .loadFunct3

/-- STORE, `0100011` (R83). -/
def decodeStore (w : InstWord) : Except Reject Instr :=
  let f3 := funct3Of w
  if f3 = 0b000#3 then .ok (.sb (rs1Of w) (rs2Of w) (immSOf w))
  else if f3 = 0b001#3 then .ok (.sh (rs1Of w) (rs2Of w) (immSOf w))
  else if f3 = 0b010#3 then .ok (.sw (rs1Of w) (rs2Of w) (immSOf w))
  else if f3 = 0b011#3 then .ok (.sd (rs1Of w) (rs2Of w) (immSOf w))
  else .error .storeFunct3

/-- OP-IMM, `0010011` (R83). Every funct3 selects an instruction; for the shifts `inst[31:26]` is ignored but for
`inst[30]`, which tells SRAI from SRLI (R87, DESIGN CHOICE, log entry 7). -/
def decodeOpImm (w : InstWord) : Instr :=
  let f3 := funct3Of w
  if f3 = 0b000#3 then .addi (rdOf w) (rs1Of w) (immIOf w)
  else if f3 = 0b010#3 then .slti (rdOf w) (rs1Of w) (immIOf w)
  else if f3 = 0b011#3 then .sltiu (rdOf w) (rs1Of w) (immIOf w)
  else if f3 = 0b100#3 then .xori (rdOf w) (rs1Of w) (immIOf w)
  else if f3 = 0b110#3 then .ori (rdOf w) (rs1Of w) (immIOf w)
  else if f3 = 0b111#3 then .andi (rdOf w) (rs1Of w) (immIOf w)
  else if f3 = 0b001#3 then .slli (rdOf w) (rs1Of w) (shamt6Of w)
  else if w.getLsbD 30 = false then .srli (rdOf w) (rs1Of w) (shamt6Of w)
  else .srai (rdOf w) (rs1Of w) (shamt6Of w)

/-- OP, `0110011` (R83). -/
def decodeOp (w : InstWord) : Except Reject Instr :=
  let f3 := funct3Of w
  let f7 := funct7Of w
  if f7 = 0b0000000#7 then
    if f3 = 0b000#3 then .ok (.add (rdOf w) (rs1Of w) (rs2Of w))
    else if f3 = 0b001#3 then .ok (.sll (rdOf w) (rs1Of w) (rs2Of w))
    else if f3 = 0b010#3 then .ok (.slt (rdOf w) (rs1Of w) (rs2Of w))
    else if f3 = 0b011#3 then .ok (.sltu (rdOf w) (rs1Of w) (rs2Of w))
    else if f3 = 0b100#3 then .ok (.xor (rdOf w) (rs1Of w) (rs2Of w))
    else if f3 = 0b101#3 then .ok (.srl (rdOf w) (rs1Of w) (rs2Of w))
    else if f3 = 0b110#3 then .ok (.or (rdOf w) (rs1Of w) (rs2Of w))
    else .ok (.and (rdOf w) (rs1Of w) (rs2Of w))
  else if f7 = 0b0100000#7 then
    if f3 = 0b000#3 then .ok (.sub (rdOf w) (rs1Of w) (rs2Of w))
    else if f3 = 0b101#3 then .ok (.sra (rdOf w) (rs1Of w) (rs2Of w))
    else .error .opFunct
  else .error .opFunct

/-- OP-IMM-32, `0011011` (R83); the shifts are strict in `inst[31:25]` (R88, PRESUMED, log entry 8). -/
def decodeOpImm32 (w : InstWord) : Except Reject Instr :=
  let f3 := funct3Of w
  let f7 := funct7Of w
  if f3 = 0b000#3 then .ok (.addiw (rdOf w) (rs1Of w) (immIOf w))
  else if f3 = 0b001#3 then
    if f7 = 0b0000000#7 then .ok (.slliw (rdOf w) (rs1Of w) (shamt5Of w)) else .error .opImm32Funct
  else if f3 = 0b101#3 then
    if f7 = 0b0000000#7 then .ok (.srliw (rdOf w) (rs1Of w) (shamt5Of w))
    else if f7 = 0b0100000#7 then .ok (.sraiw (rdOf w) (rs1Of w) (shamt5Of w))
    else .error .opImm32Funct
  else .error .opImm32Funct

/-- OP-32, `0111011` (R83). -/
def decodeOp32 (w : InstWord) : Except Reject Instr :=
  let f3 := funct3Of w
  let f7 := funct7Of w
  if f7 = 0b0000000#7 then
    if f3 = 0b000#3 then .ok (.addw (rdOf w) (rs1Of w) (rs2Of w))
    else if f3 = 0b001#3 then .ok (.sllw (rdOf w) (rs1Of w) (rs2Of w))
    else if f3 = 0b101#3 then .ok (.srlw (rdOf w) (rs1Of w) (rs2Of w))
    else .error .op32Funct
  else if f7 = 0b0100000#7 then
    if f3 = 0b000#3 then .ok (.subw (rdOf w) (rs1Of w) (rs2Of w))
    else if f3 = 0b101#3 then .ok (.sraw (rdOf w) (rs1Of w) (rs2Of w))
    else .error .op32Funct
  else .error .op32Funct

/-- FENCE: only the opcode and funct3 are examined (R85, PRESUMED, log entry 9). -/
def decodeMiscMem (w : InstWord) : Except Reject Instr :=
  if funct3Of w = 0b000#3 then
    .ok (.fence (w.extractLsb' 28 4) (w.extractLsb' 24 4) (w.extractLsb' 20 4) (rs1Of w) (rdOf w))
  else .error .miscMemFunct3

/-- `Decode(inst)` of R83: a total function of the word alone (R80, R82). -/
def decode (w : InstWord) : Except Reject Instr :=
  let op := opcodeOf w
  if op = 0b0110111#7 then .ok (.lui (rdOf w) (immUOf w))
  else if op = 0b0010111#7 then .ok (.auipc (rdOf w) (immUOf w))
  else if op = 0b1101111#7 then .ok (.jal (rdOf w) (immJOf w))
  else if op = 0b1100111#7 then
    if funct3Of w = 0b000#3 then .ok (.jalr (rdOf w) (rs1Of w) (immIOf w)) else .error .jalrFunct3
  else if op = 0b1100011#7 then decodeBranch w
  else if op = 0b0000011#7 then decodeLoad w
  else if op = 0b0100011#7 then decodeStore w
  else if op = 0b0010011#7 then .ok (decodeOpImm w)
  else if op = 0b0110011#7 then decodeOp w
  else if op = 0b0001111#7 then decodeMiscMem w
  else if op = 0b0011011#7 then decodeOpImm32 w
  else if op = 0b0111011#7 then decodeOp32 w
  else .error .noSuchOpcode

/-- The instruction word that four bytes hold, the first at the lowest address (R46, DEDUCED, log entry 11). -/
def wordOfBytes (b0 b1 b2 b3 : Byte) : InstWord :=
  place 24 b3 ||| place 16 b2 ||| place 8 b1 ||| place 0 b0

/-- Decode the instruction at the head of a byte list and answer the bytes after it. -/
def decodeBytes : List Byte → Except Reject (Instr × List Byte)
  | b0 :: b1 :: b2 :: b3 :: rest =>
    match decode (wordOfBytes b0 b1 b2 b3) with
    | .ok i => .ok (i, rest)
    | .error e => .error e
  | _ => .error .truncated

/-- The four bytes of an instruction word as the hardware stores them, lowest address first (R46). -/
def bytesOfWord (w : InstWord) : List Byte :=
  [w.extractLsb' 0 8, w.extractLsb' 8 8, w.extractLsb' 16 8, w.extractLsb' 24 8]

/-- The instruction word whose low `nbits` bits are those of `w` and whose other bits are 0. -/
def tableWord (nbits w : Nat) : InstWord := BitVec.ofNat 32 (w % 2 ^ nbits)

/-- The instruction this decoder reads from a row of spec/opcode_table.json with bits `w`. -/
def decodeTableWord (nbits w : Nat) : Option Instr :=
  match decodeBytes (bytesOfWord (tableWord nbits w)) with
  | .ok (i, _) => some i
  | .error _ => none

/-! ### The encoder (the layouts of R72, the codes of R84); it is not part of the core (R90) -/

/-- Format R. -/
def encodeR (f7 : BitVec 7) (rs2 rs1 : RegIdx) (f3 : BitVec 3) (rd : RegIdx) (op : BitVec 7) : InstWord :=
  place 25 f7 ||| place 20 rs2 ||| place 15 rs1 ||| place 12 f3 ||| place 7 rd ||| place 0 op

/-- Format I. -/
def encodeI (imm : BitVec 12) (rs1 : RegIdx) (f3 : BitVec 3) (rd : RegIdx) (op : BitVec 7) : InstWord :=
  place 20 imm ||| place 15 rs1 ||| place 12 f3 ||| place 7 rd ||| place 0 op

/-- Format S. -/
def encodeS (imm : BitVec 12) (rs2 rs1 : RegIdx) (f3 : BitVec 3) (op : BitVec 7) : InstWord :=
  place 25 (imm.extractLsb' 5 7) ||| place 20 rs2 ||| place 15 rs1 ||| place 12 f3 ||| place 7 (imm.extractLsb' 0 5) ||| place 0 op

/-- Format B. -/
def encodeB (imm : BitVec 13) (rs2 rs1 : RegIdx) (f3 : BitVec 3) (op : BitVec 7) : InstWord :=
  place 31 (imm.extractLsb' 12 1) ||| place 25 (imm.extractLsb' 5 6) ||| place 20 rs2 ||| place 15 rs1 ||| place 12 f3
    ||| place 8 (imm.extractLsb' 1 4) ||| place 7 (imm.extractLsb' 11 1) ||| place 0 op

/-- Format U. -/
def encodeU (imm : BitVec 20) (rd : RegIdx) (op : BitVec 7) : InstWord :=
  place 12 imm ||| place 7 rd ||| place 0 op

/-- Format J. -/
def encodeJ (imm : BitVec 21) (rd : RegIdx) (op : BitVec 7) : InstWord :=
  place 31 (imm.extractLsb' 20 1) ||| place 21 (imm.extractLsb' 1 10) ||| place 20 (imm.extractLsb' 11 1)
    ||| place 12 (imm.extractLsb' 12 8) ||| place 7 rd ||| place 0 op

/-- The canonical word of an instruction (R87, R90). -/
def encode : Instr → InstWord
  | .addi rd rs1 imm => encodeI imm rs1 0b000#3 rd 0b0010011#7
  | .slti rd rs1 imm => encodeI imm rs1 0b010#3 rd 0b0010011#7
  | .sltiu rd rs1 imm => encodeI imm rs1 0b011#3 rd 0b0010011#7
  | .xori rd rs1 imm => encodeI imm rs1 0b100#3 rd 0b0010011#7
  | .ori rd rs1 imm => encodeI imm rs1 0b110#3 rd 0b0010011#7
  | .andi rd rs1 imm => encodeI imm rs1 0b111#3 rd 0b0010011#7
  | .slli rd rs1 shamt => encodeI (place 6 0b000000#6 ||| place 0 shamt) rs1 0b001#3 rd 0b0010011#7
  | .srli rd rs1 shamt => encodeI (place 6 0b000000#6 ||| place 0 shamt) rs1 0b101#3 rd 0b0010011#7
  | .srai rd rs1 shamt => encodeI (place 6 0b010000#6 ||| place 0 shamt) rs1 0b101#3 rd 0b0010011#7
  | .add rd rs1 rs2 => encodeR 0b0000000#7 rs2 rs1 0b000#3 rd 0b0110011#7
  | .sub rd rs1 rs2 => encodeR 0b0100000#7 rs2 rs1 0b000#3 rd 0b0110011#7
  | .sll rd rs1 rs2 => encodeR 0b0000000#7 rs2 rs1 0b001#3 rd 0b0110011#7
  | .slt rd rs1 rs2 => encodeR 0b0000000#7 rs2 rs1 0b010#3 rd 0b0110011#7
  | .sltu rd rs1 rs2 => encodeR 0b0000000#7 rs2 rs1 0b011#3 rd 0b0110011#7
  | .xor rd rs1 rs2 => encodeR 0b0000000#7 rs2 rs1 0b100#3 rd 0b0110011#7
  | .srl rd rs1 rs2 => encodeR 0b0000000#7 rs2 rs1 0b101#3 rd 0b0110011#7
  | .sra rd rs1 rs2 => encodeR 0b0100000#7 rs2 rs1 0b101#3 rd 0b0110011#7
  | .or rd rs1 rs2 => encodeR 0b0000000#7 rs2 rs1 0b110#3 rd 0b0110011#7
  | .and rd rs1 rs2 => encodeR 0b0000000#7 rs2 rs1 0b111#3 rd 0b0110011#7
  | .addiw rd rs1 imm => encodeI imm rs1 0b000#3 rd 0b0011011#7
  | .slliw rd rs1 shamt => encodeI (place 5 0b0000000#7 ||| place 0 shamt) rs1 0b001#3 rd 0b0011011#7
  | .srliw rd rs1 shamt => encodeI (place 5 0b0000000#7 ||| place 0 shamt) rs1 0b101#3 rd 0b0011011#7
  | .sraiw rd rs1 shamt => encodeI (place 5 0b0100000#7 ||| place 0 shamt) rs1 0b101#3 rd 0b0011011#7
  | .addw rd rs1 rs2 => encodeR 0b0000000#7 rs2 rs1 0b000#3 rd 0b0111011#7
  | .subw rd rs1 rs2 => encodeR 0b0100000#7 rs2 rs1 0b000#3 rd 0b0111011#7
  | .sllw rd rs1 rs2 => encodeR 0b0000000#7 rs2 rs1 0b001#3 rd 0b0111011#7
  | .srlw rd rs1 rs2 => encodeR 0b0000000#7 rs2 rs1 0b101#3 rd 0b0111011#7
  | .sraw rd rs1 rs2 => encodeR 0b0100000#7 rs2 rs1 0b101#3 rd 0b0111011#7
  | .lui rd imm => encodeU imm rd 0b0110111#7
  | .auipc rd imm => encodeU imm rd 0b0010111#7
  | .jal rd imm => encodeJ imm rd 0b1101111#7
  | .jalr rd rs1 imm => encodeI imm rs1 0b000#3 rd 0b1100111#7
  | .beq rs1 rs2 imm => encodeB imm rs2 rs1 0b000#3 0b1100011#7
  | .bne rs1 rs2 imm => encodeB imm rs2 rs1 0b001#3 0b1100011#7
  | .blt rs1 rs2 imm => encodeB imm rs2 rs1 0b100#3 0b1100011#7
  | .bge rs1 rs2 imm => encodeB imm rs2 rs1 0b101#3 0b1100011#7
  | .bltu rs1 rs2 imm => encodeB imm rs2 rs1 0b110#3 0b1100011#7
  | .bgeu rs1 rs2 imm => encodeB imm rs2 rs1 0b111#3 0b1100011#7
  | .fence fm pred succ rs1 rd => encodeI (place 8 fm ||| place 4 pred ||| place 0 succ) rs1 0b000#3 rd 0b0001111#7
  | .lb rd rs1 imm => encodeI imm rs1 0b000#3 rd 0b0000011#7
  | .lh rd rs1 imm => encodeI imm rs1 0b001#3 rd 0b0000011#7
  | .lw rd rs1 imm => encodeI imm rs1 0b010#3 rd 0b0000011#7
  | .ld rd rs1 imm => encodeI imm rs1 0b011#3 rd 0b0000011#7
  | .lbu rd rs1 imm => encodeI imm rs1 0b100#3 rd 0b0000011#7
  | .lhu rd rs1 imm => encodeI imm rs1 0b101#3 rd 0b0000011#7
  | .lwu rd rs1 imm => encodeI imm rs1 0b110#3 rd 0b0000011#7
  | .sb rs1 rs2 imm => encodeS imm rs2 rs1 0b000#3 0b0100011#7
  | .sh rs1 rs2 imm => encodeS imm rs2 rs1 0b001#3 0b0100011#7
  | .sw rs1 rs2 imm => encodeS imm rs2 rs1 0b010#3 0b0100011#7
  | .sd rs1 rs2 imm => encodeS imm rs2 rs1 0b011#3 0b0100011#7

/-! ### The opcode table (R84) -/

/-- A row of R84: a word `w` is the instruction of the row exactly when `w & mask = match`. -/
structure OpcodeRow where
  mnemonic : String
  pattern : InstWord
  mask : InstWord
  deriving DecidableEq, Repr

/-- Whether the word is the instruction of the row (R84). -/
def OpcodeRow.matchesWord (r : OpcodeRow) (w : InstWord) : Bool := w &&& r.mask == r.pattern

/-- Rows of R84 for rules R100 to R118. -/
def arithLogicRows : List OpcodeRow := [
  ⟨"ADDI", 0x00000013#32, 0x0000707f#32⟩,
  ⟨"SLTI", 0x00002013#32, 0x0000707f#32⟩,
  ⟨"SLTIU", 0x00003013#32, 0x0000707f#32⟩,
  ⟨"XORI", 0x00004013#32, 0x0000707f#32⟩,
  ⟨"ORI", 0x00006013#32, 0x0000707f#32⟩,
  ⟨"ANDI", 0x00007013#32, 0x0000707f#32⟩,
  ⟨"SLLI", 0x00001013#32, 0x0000707f#32⟩,
  ⟨"SRLI", 0x00005013#32, 0x4000707f#32⟩,
  ⟨"SRAI", 0x40005013#32, 0x4000707f#32⟩,
  ⟨"ADD", 0x00000033#32, 0xfe00707f#32⟩,
  ⟨"SUB", 0x40000033#32, 0xfe00707f#32⟩,
  ⟨"SLL", 0x00001033#32, 0xfe00707f#32⟩,
  ⟨"SLT", 0x00002033#32, 0xfe00707f#32⟩,
  ⟨"SLTU", 0x00003033#32, 0xfe00707f#32⟩,
  ⟨"XOR", 0x00004033#32, 0xfe00707f#32⟩,
  ⟨"SRL", 0x00005033#32, 0xfe00707f#32⟩,
  ⟨"SRA", 0x40005033#32, 0xfe00707f#32⟩,
  ⟨"OR", 0x00006033#32, 0xfe00707f#32⟩,
  ⟨"AND", 0x00007033#32, 0xfe00707f#32⟩]

/-- Rows of R84 for rules R130 to R138. -/
def wordRows : List OpcodeRow := [
  ⟨"ADDIW", 0x0000001b#32, 0x0000707f#32⟩,
  ⟨"SLLIW", 0x0000101b#32, 0xfe00707f#32⟩,
  ⟨"SRLIW", 0x0000501b#32, 0xfe00707f#32⟩,
  ⟨"SRAIW", 0x4000501b#32, 0xfe00707f#32⟩,
  ⟨"ADDW", 0x0000003b#32, 0xfe00707f#32⟩,
  ⟨"SUBW", 0x4000003b#32, 0xfe00707f#32⟩,
  ⟨"SLLW", 0x0000103b#32, 0xfe00707f#32⟩,
  ⟨"SRLW", 0x0000503b#32, 0xfe00707f#32⟩,
  ⟨"SRAW", 0x4000503b#32, 0xfe00707f#32⟩]

/-- Rows of R84 for rules R150, R151. -/
def upperImmediateRows : List OpcodeRow := [
  ⟨"LUI", 0x00000037#32, 0x0000007f#32⟩,
  ⟨"AUIPC", 0x00000017#32, 0x0000007f#32⟩]

/-- Rows of R84 for rules R160 to R168. -/
def controlFlowRows : List OpcodeRow := [
  ⟨"JAL", 0x0000006f#32, 0x0000007f#32⟩,
  ⟨"JALR", 0x00000067#32, 0x0000707f#32⟩,
  ⟨"BEQ", 0x00000063#32, 0x0000707f#32⟩,
  ⟨"BNE", 0x00001063#32, 0x0000707f#32⟩,
  ⟨"BLT", 0x00004063#32, 0x0000707f#32⟩,
  ⟨"BGE", 0x00005063#32, 0x0000707f#32⟩,
  ⟨"BLTU", 0x00006063#32, 0x0000707f#32⟩,
  ⟨"BGEU", 0x00007063#32, 0x0000707f#32⟩,
  ⟨"FENCE", 0x0000000f#32, 0x0000707f#32⟩]

/-- Rows of R84 for rules R180 to R190. -/
def memoryRows : List OpcodeRow := [
  ⟨"LB", 0x00000003#32, 0x0000707f#32⟩,
  ⟨"LH", 0x00001003#32, 0x0000707f#32⟩,
  ⟨"LW", 0x00002003#32, 0x0000707f#32⟩,
  ⟨"LD", 0x00003003#32, 0x0000707f#32⟩,
  ⟨"LBU", 0x00004003#32, 0x0000707f#32⟩,
  ⟨"LHU", 0x00005003#32, 0x0000707f#32⟩,
  ⟨"LWU", 0x00006003#32, 0x0000707f#32⟩,
  ⟨"SB", 0x00000023#32, 0x0000707f#32⟩,
  ⟨"SH", 0x00001023#32, 0x0000707f#32⟩,
  ⟨"SW", 0x00002023#32, 0x0000707f#32⟩,
  ⟨"SD", 0x00003023#32, 0x0000707f#32⟩]

/-- The 50 rows of R84. -/
def opcodeTable : List OpcodeRow :=
  arithLogicRows ++ wordRows ++ upperImmediateRows ++ controlFlowRows ++ memoryRows

/-- The mnemonic of an instruction, as R84 spells it. -/
def Instr.mnemonic : Instr → String
  | .addi _ _ _ => "ADDI"
  | .slti _ _ _ => "SLTI"
  | .sltiu _ _ _ => "SLTIU"
  | .xori _ _ _ => "XORI"
  | .ori _ _ _ => "ORI"
  | .andi _ _ _ => "ANDI"
  | .slli _ _ _ => "SLLI"
  | .srli _ _ _ => "SRLI"
  | .srai _ _ _ => "SRAI"
  | .add _ _ _ => "ADD"
  | .sub _ _ _ => "SUB"
  | .sll _ _ _ => "SLL"
  | .slt _ _ _ => "SLT"
  | .sltu _ _ _ => "SLTU"
  | .xor _ _ _ => "XOR"
  | .srl _ _ _ => "SRL"
  | .sra _ _ _ => "SRA"
  | .or _ _ _ => "OR"
  | .and _ _ _ => "AND"
  | .addiw _ _ _ => "ADDIW"
  | .slliw _ _ _ => "SLLIW"
  | .srliw _ _ _ => "SRLIW"
  | .sraiw _ _ _ => "SRAIW"
  | .addw _ _ _ => "ADDW"
  | .subw _ _ _ => "SUBW"
  | .sllw _ _ _ => "SLLW"
  | .srlw _ _ _ => "SRLW"
  | .sraw _ _ _ => "SRAW"
  | .lui _ _ => "LUI"
  | .auipc _ _ => "AUIPC"
  | .jal _ _ => "JAL"
  | .jalr _ _ _ => "JALR"
  | .beq _ _ _ => "BEQ"
  | .bne _ _ _ => "BNE"
  | .blt _ _ _ => "BLT"
  | .bge _ _ _ => "BGE"
  | .bltu _ _ _ => "BLTU"
  | .bgeu _ _ _ => "BGEU"
  | .fence _ _ _ _ _ => "FENCE"
  | .lb _ _ _ => "LB"
  | .lh _ _ _ => "LH"
  | .lw _ _ _ => "LW"
  | .ld _ _ _ => "LD"
  | .lbu _ _ _ => "LBU"
  | .lhu _ _ _ => "LHU"
  | .lwu _ _ _ => "LWU"
  | .sb _ _ _ => "SB"
  | .sh _ _ _ => "SH"
  | .sw _ _ _ => "SW"
  | .sd _ _ _ => "SD"

end Sys2Proof
end

