-- ==== Sys2Proof/Machine/State.lean ====
section
/-! DEFINITION. The architectural state (spec/10_state.md R20 to R36), the traps (spec/60_exceptions.md R200 to R204) and
the state after reset (R36, R230). -/

namespace Sys2Proof.Machine

/-- The contents of the MemoryImage (R33). `cells` lists the bytes that differ from `Config.unlistedByte` by absolute
address (DESIGN CHOICE, log entry 14), in the canonical form `Memory.wf`. Where the image is mapped and how long it is are
parameters of R11 and "are not state" (R20): every operation takes them as an argument (log entry 1). -/
structure Memory where
  cells : List Host.Cell
  deriving DecidableEq, Repr

/-- The triple `(x, pc, mem)` of R20, "these three fields and no others". Registers are read and written through `State.reg` and `State.setReg`
(Machine/Ops.lean), where `x0` is hard-wired to zero (R22). -/
structure State where
  /-- `x0` to `x31` (R22). -/
  x : Vector Word 32
  /-- The program counter (R26, R27). -/
  pc : Word
  /-- The memory image (R33). -/
  mem : Memory
  deriving DecidableEq, Repr

/-- The trap record of R203: the set of traps is closed and has these two members (R200). A trap is the result of the
step and nothing is committed (R206); it ends the run (R207, D17; DEDUCED, log entry 12). -/
inductive Fault where
  /-- Raised by the step when the decoder matches no instruction (R201). Safe: the spec says the step ends here with no
  state committed. -/
  | illegalInstruction (inst : InstWord) (pc : Word)
  /-- Raised by the fetch, a load or a store that is out of range (R202). `inst` is absent when no word was fetched; `addr`
  and `n` are the address and width of the failed access. Safe: the spec says the step ends here with no state committed. -/
  | memoryFault (pc : Word) (inst : Option InstWord) (addr : Word) (n : Width)
  deriving DecidableEq, Repr

/-- Why an instruction has no meaning in this model. -/
inductive Refusal where
  /-- Raised by an arm of `exec` whose instruction is not modelled yet; no arm is left so. Safe: the model stops. -/
  | notModelled (mnemonic : String)
  deriving DecidableEq, Repr

/-- The state after reset (R36, R230) for the parameters of Config.lean, with no program loaded: `pc = DRAM_BASE`, `x0 = 0`,
`x1` to `x31` and the memory contents at the values that log entries 2 and 3 name. `State.boot` (Machine/Boot.lean) is
the same for any parameters. -/
def State.reset : State where
  x := Vector.replicate 32 Config.xregReset
  pc := Config.dram.base
  mem := { cells := [] }

end Sys2Proof.Machine
end

