-- ==== Sys2Proof/Machine/Ops.lean ====
section
/-! DEFINITION. The named operations over memory and registers that every meaning is written with, and the one operation
by which an instruction traps. There is no return from a trap: nothing was saved and no handler runs
(spec/60_exceptions.md R210, R211). -/

namespace Sys2Proof.Machine

/-! ### The byte buffer (spec/10_state.md R33) -/

/-- The byte listed for an address, or what an unlisted address reads as. -/
def lookupCell (a : Nat) : List Host.Cell → Byte
  | [] => Config.unlistedByte
  | (c, b) :: rest => if c = a then b else lookupCell a rest

/-- Insert a cell before the first one at a higher address. -/
def insertCell (a : Nat) (b : Byte) : List Host.Cell → List Host.Cell
  | [] => [(a, b)]
  | (c, d) :: rest => if a < c then (a, b) :: (c, d) :: rest else (c, d) :: insertCell a b rest

/-- Drop the cells at an address. -/
def eraseCell (a : Nat) : List Host.Cell → List Host.Cell
  | [] => []
  | (c, d) :: rest => if c = a then eraseCell a rest else (c, d) :: eraseCell a rest

/-- One byte of the image, by absolute address. -/
def Memory.byteAt (m : Memory) (a : Nat) : Byte := lookupCell a m.cells

/-- Set one byte of the image; writing what an unlisted address reads as removes the entry. -/
def Memory.setByte (m : Memory) (a : Nat) (b : Byte) : Memory :=
  { cells := if b = Config.unlistedByte then eraseCell a m.cells else insertCell a b (eraseCell a m.cells) }

/-- The canonical form of a list of cells: addresses strictly rising, from `lo` up and below `hi`, no entry equal to what
an unlisted address reads as. -/
def canonicalCells (lo hi : Nat) : List Host.Cell → Bool
  | [] => true
  | (a, b) :: rest => decide (lo ≤ a) && decide (a < hi) && decide (b ≠ Config.unlistedByte) && canonicalCells (a + 1) hi rest

/-- The memory image is in canonical form for a DRAM that is as R11 says, and its cells lie in it (R33). -/
def Memory.wfIn (m : Memory) (d : Dram) : Bool :=
  decide d.Ok && canonicalCells d.base.toNat (d.base.toNat + d.size) m.cells

/-- The memory image is in canonical form for the chosen DRAM. -/
def Memory.wf (m : Memory) : Bool := m.wfIn Config.dram

/-! ### The memory bus (spec/20_memory.md R40 to R49) -/

/-- The range check of R42, in unbounded integers: no reduction modulo `2^64`. -/
def inRange (d : Dram) (addr : Word) (n : Width) : Bool :=
  decide (d.base.toNat ≤ addr.toNat) && decide (addr.toNat + n.bytes ≤ d.base.toNat + d.size)

/-- `mem[a] | mem[a+1] << 8 | ...`, `k` bytes little-endian (R44). -/
def Memory.readBytes (m : Memory) (a : Nat) : Nat → Word
  | 0 => 0#64
  | k + 1 => (m.byteAt a).setWidth 64 ||| (m.readBytes (a + 1) k <<< 8)

/-- `mem[a+i] <- v[8i+7 : 8i]` for `i` below `k` (R45). -/
def Memory.writeBytes (m : Memory) (a : Nat) (v : Word) : Nat → Memory
  | 0 => m
  | k + 1 => (m.setByte a (v.setWidth 8)).writeBytes (a + 1) (v >>> 8) k

/-- `MemRead(addr, n)` of R44: the `8n`-bit value, zero above, or `none` for an access out of range. Any alignment (R49). -/
def Memory.read (m : Memory) (d : Dram) (addr : Word) (n : Width) : Option Word :=
  if inRange d addr n then some (m.readBytes addr.toNat n.bytes) else none

/-- `MemWrite(addr, n, v)` of R45: the image with the low `n` bytes of `v` written, or `none`, nothing written, for an
access out of range (R43). -/
def Memory.write (m : Memory) (d : Dram) (addr : Word) (n : Width) (v : Word) : Option Memory :=
  if inRange d addr n then some (m.writeBytes addr.toNat v n.bytes) else none

/-! ### Registers and the program counter (spec/10_state.md R22 to R28) -/

/-- `x[i]`; `x[0]` is 0 (R22). -/
def State.reg (s : State) (i : RegIdx) : Word :=
  if i = 0#5 then 0#64 else s.x[i.toNat]'i.isLt

/-- `x[i] <- v`; discarded when `i = 0` (R22). -/
def State.setReg (s : State) (i : RegIdx) (v : Word) : State :=
  if i = 0#5 then s else { s with x := s.x.set i.toNat v i.isLt }

/-- `pc <- target`. -/
def State.setPc (s : State) (target : Word) : State := { s with pc := target }

/-- `pc + 4`, modulo `2^64` (R28, R29): the default next pc, and the link value of JAL and JALR. -/
def State.nextPc (s : State) : Word := s.pc + 4#64

/-- Commit a register write and a next pc (spec/60_exceptions.md R205, stage 4). -/
def commitRegPc (rd : RegIdx) (v target : Word) (s : State) : Host.Outcome State Fault Refusal :=
  .next ((s.setReg rd v).setPc target)

/-- Commit a register write and `pc + 4` (R28). -/
def commitReg (rd : RegIdx) (v : Word) (s : State) : Host.Outcome State Fault Refusal :=
  commitRegPc rd v s.nextPc s

/-- Commit a next pc alone. -/
def commitPc (target : Word) (s : State) : Host.Outcome State Fault Refusal :=
  .next (s.setPc target)

/-! ### Fetch and traps (spec/60_exceptions.md R200 to R208) -/

/-- The word the step fetches, `MemRead(pc, 4)` (R46); `none` when that access is out of range. -/
def State.fetchedWord (s : State) (d : Dram) : Option InstWord :=
  (s.mem.read d s.pc .word).map (·.setWidth 32)

/-- Take a MemoryFault on an access of `n` bytes at `addr`: the step's result is the record of R203 and nothing is
committed (R206). `pc` is the address of the instruction; `inst` is the word fetched there, absent when none was. -/
def raiseMemoryFault (d : Dram) (addr : Word) (n : Width) (s : State) : Host.Outcome State Fault Refusal :=
  .fault (.memoryFault s.pc (s.fetchedWord d) addr n)

/-- Take an IllegalInstruction on the fetched word: the step's result is the record of R203 and nothing is committed
(R201, R206). -/
def raiseIllegalInstruction (inst : InstWord) (s : State) : Host.Outcome State Fault Refusal :=
  .fault (.illegalInstruction inst s.pc)

/-- `s` with the instruction word `w` stored, little-endian, at `pc`; `s` itself where `pc` cannot be fetched from. No step
does this: it stands for the loader (DESIGN CHOICE, log entry 17). -/
def State.placeWord (s : State) (d : Dram) (w : InstWord) : State :=
  match s.mem.write d s.pc .word (w.setWidth 64) with
  | some m => { s with mem := m }
  | none => s

end Sys2Proof.Machine
end

