-- ==== Sys2Proof/Machine/Operands.lean ====
section
/-! DEFINITION. The operand forms: extensions (spec/00_scope.md R18), immediates (spec/30_encoding.md R74 to R78), shift
amounts (R79; spec/40_arith_logic.md R122, spec/41_word_ops.md R141), effective addresses (spec/44_memory_access.md R191)
and control-flow targets (spec/43_control_flow.md R160, R161, R169). -/

namespace Sys2Proof.Machine

/-- `sext_N(v)`: the low `N` bits of `v`, extended with copies of bit `N-1` (R18). -/
def sextLow (N : Nat) (v : Word) : Word := (v.setWidth N).signExtend 64

/-- `zext_N(v)`: the low `N` bits of `v`, extended with zeros (R18). -/
def zextLow (N : Nat) (v : Word) : Word := (v.setWidth N).setWidth 64

/-- `imm_I` (R74). -/
def immI (imm : BitVec 12) : Word := imm.signExtend 64
/-- `imm_S` (R75). -/
def immS (imm : BitVec 12) : Word := imm.signExtend 64
/-- `imm_B` (R76). -/
def immB (imm : BitVec 13) : Word := imm.signExtend 64
/-- `imm_U`: the field over 12 zero bits, sign-extended from bit 31 of that 32-bit value (R77; 90_conflicts.md C2). -/
def immU (imm : BitVec 20) : Word := (imm.setWidth 32 <<< 12).signExtend 64
/-- `imm_J` (R78). -/
def immJ (imm : BitVec 21) : Word := imm.signExtend 64

/-- The amount of SLL, SRL, SRA: the low 6 bits of the register (R122). -/
def shiftAmount6 (v : Word) : Nat := (v.setWidth 6).toNat
/-- The amount of SLLW, SRLW, SRAW: the low 5 bits of the register (R141). -/
def shiftAmount5 (v : Word) : Nat := (v.setWidth 5).toNat

/-- The low 32 bits of an operand of a word instruction (R139). -/
def lowWord (v : Word) : BitVec 32 := v.setWidth 32

/-- The result of a word instruction: the 32-bit result sign-extended (R139). -/
def sextWord (r : BitVec 32) : Word := r.signExtend 64

/-- The effective address of a load, modulo `2^64` (R191, R47). -/
def loadAddress (rs1 : RegIdx) (imm : BitVec 12) (s : State) : Word := s.reg rs1 + immI imm
/-- The effective address of a store, modulo `2^64` (R191, R47). -/
def storeAddress (rs1 : RegIdx) (imm : BitVec 12) (s : State) : Word := s.reg rs1 + immS imm

/-- The target of a taken branch, from the branch's own pc (R169). -/
def branchTarget (imm : BitVec 13) (s : State) : Word := s.pc + immB imm
/-- The target of JAL (R160). -/
def jalTarget (imm : BitVec 21) (s : State) : Word := s.pc + immJ imm
/-- The target of JALR: not relative to pc, bit 0 forced to 0 (R161). -/
def jalrTarget (rs1 : RegIdx) (imm : BitVec 12) (s : State) : Word :=
  (s.reg rs1 + immI imm) &&& 0xFFFFFFFFFFFFFFFE#64

end Sys2Proof.Machine
end

