-- ==== Sys2Proof/Machine/Flags.lean ====
section
/-! DEFINITION. The core has no flags (spec/10_state.md R30): "comparisons write 0 or 1 to a general register or decide
a branch directly". These are those comparisons (spec/00_scope.md R18; spec/40_arith_logic.md R121; spec/43_control_flow.md R173). -/

namespace Sys2Proof.Machine

/-- `a <s b`. -/
def ltSigned (a b : Word) : Bool := a.slt b
/-- `a <u b`. -/
def ltUnsigned (a b : Word) : Bool := a.ult b
/-- `a >=s b`. -/
def geSigned (a b : Word) : Bool := !ltSigned a b
/-- `a >=u b`. -/
def geUnsigned (a b : Word) : Bool := !ltUnsigned a b

/-- `if c then 1 else 0`, the result of the set-if-less-than instructions (R121). -/
def setResult (c : Bool) : Word := if c then 1#64 else 0#64

end Sys2Proof.Machine
end

