-- ==== Sys2Proof/Machine/ArithLogic.lean ====
section
/-! DEFINITION. The arithmetic and logic family (spec/40_arith_logic.md). None of these instructions can trap or writes a flag; each
commits `pc + 4` (R124). -/

namespace Sys2Proof.Machine

/-- ADDI, R100: `x[rd] <- x[rs1] + imm_I`, wrapping (R120). -/
def execAddi (rd rs1 : RegIdx) (imm : BitVec 12) (s : State) : Host.Outcome State Fault Refusal :=
  commitReg rd (s.reg rs1 + immI imm) s

/-- SLTI, R101: `x[rd] <- if x[rs1] <s imm_I then 1 else 0`. -/
def execSlti (rd rs1 : RegIdx) (imm : BitVec 12) (s : State) : Host.Outcome State Fault Refusal :=
  commitReg rd (setResult (ltSigned (s.reg rs1) (immI imm))) s

/-- SLTIU, R102: `x[rd] <- if x[rs1] <u imm_I then 1 else 0`, the immediate sign-extended first (R121). -/
def execSltiu (rd rs1 : RegIdx) (imm : BitVec 12) (s : State) : Host.Outcome State Fault Refusal :=
  commitReg rd (setResult (ltUnsigned (s.reg rs1) (immI imm))) s

/-- XORI, R103: `x[rd] <- x[rs1] ^ imm_I`. -/
def execXori (rd rs1 : RegIdx) (imm : BitVec 12) (s : State) : Host.Outcome State Fault Refusal :=
  commitReg rd (s.reg rs1 ^^^ immI imm) s

/-- ORI, R104: `x[rd] <- x[rs1] | imm_I`. -/
def execOri (rd rs1 : RegIdx) (imm : BitVec 12) (s : State) : Host.Outcome State Fault Refusal :=
  commitReg rd (s.reg rs1 ||| immI imm) s

/-- ANDI, R105: `x[rd] <- x[rs1] & imm_I`. -/
def execAndi (rd rs1 : RegIdx) (imm : BitVec 12) (s : State) : Host.Outcome State Fault Refusal :=
  commitReg rd (s.reg rs1 &&& immI imm) s

/-- SLLI, R106: `x[rd] <- x[rs1] << shamt6`. -/
def execSlli (rd rs1 : RegIdx) (shamt : BitVec 6) (s : State) : Host.Outcome State Fault Refusal :=
  commitReg rd (s.reg rs1 <<< shamt.toNat) s

/-- SRLI, R107: `x[rd] <- x[rs1] >>u shamt6`. -/
def execSrli (rd rs1 : RegIdx) (shamt : BitVec 6) (s : State) : Host.Outcome State Fault Refusal :=
  commitReg rd (s.reg rs1 >>> shamt.toNat) s

/-- SRAI, R108: `x[rd] <- x[rs1] >>s shamt6` (R123). -/
def execSrai (rd rs1 : RegIdx) (shamt : BitVec 6) (s : State) : Host.Outcome State Fault Refusal :=
  commitReg rd ((s.reg rs1).sshiftRight shamt.toNat) s

/-- ADD, R109: `x[rd] <- x[rs1] + x[rs2]`, wrapping (R120). -/
def execAdd (rd rs1 rs2 : RegIdx) (s : State) : Host.Outcome State Fault Refusal :=
  commitReg rd (s.reg rs1 + s.reg rs2) s

/-- SUB, R110: `x[rd] <- x[rs1] - x[rs2]`, wrapping (R120). -/
def execSub (rd rs1 rs2 : RegIdx) (s : State) : Host.Outcome State Fault Refusal :=
  commitReg rd (s.reg rs1 - s.reg rs2) s

/-- SLL, R111: `x[rd] <- x[rs1] << x[rs2][5:0]`. -/
def execSll (rd rs1 rs2 : RegIdx) (s : State) : Host.Outcome State Fault Refusal :=
  commitReg rd (s.reg rs1 <<< shiftAmount6 (s.reg rs2)) s

/-- SLT, R112: `x[rd] <- if x[rs1] <s x[rs2] then 1 else 0`. -/
def execSlt (rd rs1 rs2 : RegIdx) (s : State) : Host.Outcome State Fault Refusal :=
  commitReg rd (setResult (ltSigned (s.reg rs1) (s.reg rs2))) s

/-- SLTU, R113: `x[rd] <- if x[rs1] <u x[rs2] then 1 else 0`. -/
def execSltu (rd rs1 rs2 : RegIdx) (s : State) : Host.Outcome State Fault Refusal :=
  commitReg rd (setResult (ltUnsigned (s.reg rs1) (s.reg rs2))) s

/-- XOR, R114: `x[rd] <- x[rs1] ^ x[rs2]`. -/
def execXor (rd rs1 rs2 : RegIdx) (s : State) : Host.Outcome State Fault Refusal :=
  commitReg rd (s.reg rs1 ^^^ s.reg rs2) s

/-- SRL, R115: `x[rd] <- x[rs1] >>u x[rs2][5:0]`. -/
def execSrl (rd rs1 rs2 : RegIdx) (s : State) : Host.Outcome State Fault Refusal :=
  commitReg rd (s.reg rs1 >>> shiftAmount6 (s.reg rs2)) s

/-- SRA, R116: `x[rd] <- x[rs1] >>s x[rs2][5:0]` (R123). -/
def execSra (rd rs1 rs2 : RegIdx) (s : State) : Host.Outcome State Fault Refusal :=
  commitReg rd ((s.reg rs1).sshiftRight (shiftAmount6 (s.reg rs2))) s

/-- OR, R117: `x[rd] <- x[rs1] | x[rs2]`. -/
def execOr (rd rs1 rs2 : RegIdx) (s : State) : Host.Outcome State Fault Refusal :=
  commitReg rd (s.reg rs1 ||| s.reg rs2) s

/-- AND, R118: `x[rd] <- x[rs1] & x[rs2]`. -/
def execAnd (rd rs1 rs2 : RegIdx) (s : State) : Host.Outcome State Fault Refusal :=
  commitReg rd (s.reg rs1 &&& s.reg rs2) s

end Sys2Proof.Machine
end

