-- ==== Sys2Proof/Machine/ControlFlow.lean ====
section
/-! DEFINITION. The control-flow family and FENCE (spec/43_control_flow.md). No target is checked (R170); none of these can trap in its
execute stage. -/

namespace Sys2Proof.Machine

/-- JAL, R160: `x[rd] <- pc + 4; pc <- pc + imm_J`. -/
def execJal (rd : RegIdx) (imm : BitVec 21) (s : State) : Host.Outcome State Fault Refusal :=
  commitRegPc rd s.nextPc (jalTarget imm s) s

/-- JALR, R161: `t = (x[rs1] + imm_I) & ~1; x[rd] <- pc + 4; pc <- t`, x[rs1] read before x[rd] is written. -/
def execJalr (rd rs1 : RegIdx) (imm : BitVec 12) (s : State) : Host.Outcome State Fault Refusal :=
  commitRegPc rd s.nextPc (jalrTarget rs1 imm s) s

/-- The common part of the conditional branches (R173): the target if the condition holds, else `pc + 4`. -/
def branch (taken : Bool) (imm : BitVec 13) (s : State) : Host.Outcome State Fault Refusal :=
  commitPc (if taken then branchTarget imm s else s.nextPc) s

/-- BEQ, R162: `if x[rs1] = x[rs2] then pc <- pc + imm_B`. -/
def execBeq (rs1 rs2 : RegIdx) (imm : BitVec 13) (s : State) : Host.Outcome State Fault Refusal :=
  branch (s.reg rs1 == s.reg rs2) imm s

/-- BNE, R163: `if x[rs1] != x[rs2] then pc <- pc + imm_B`. -/
def execBne (rs1 rs2 : RegIdx) (imm : BitVec 13) (s : State) : Host.Outcome State Fault Refusal :=
  branch (s.reg rs1 != s.reg rs2) imm s

/-- BLT, R164: `if x[rs1] <s x[rs2] then pc <- pc + imm_B`. -/
def execBlt (rs1 rs2 : RegIdx) (imm : BitVec 13) (s : State) : Host.Outcome State Fault Refusal :=
  branch (ltSigned (s.reg rs1) (s.reg rs2)) imm s

/-- BGE, R165: `if x[rs1] >=s x[rs2] then pc <- pc + imm_B`. -/
def execBge (rs1 rs2 : RegIdx) (imm : BitVec 13) (s : State) : Host.Outcome State Fault Refusal :=
  branch (geSigned (s.reg rs1) (s.reg rs2)) imm s

/-- BLTU, R166: `if x[rs1] <u x[rs2] then pc <- pc + imm_B`. -/
def execBltu (rs1 rs2 : RegIdx) (imm : BitVec 13) (s : State) : Host.Outcome State Fault Refusal :=
  branch (ltUnsigned (s.reg rs1) (s.reg rs2)) imm s

/-- BGEU, R167: `if x[rs1] >=u x[rs2] then pc <- pc + imm_B`. -/
def execBgeu (rs1 rs2 : RegIdx) (imm : BitVec 13) (s : State) : Host.Outcome State Fault Refusal :=
  branch (geUnsigned (s.reg rs1) (s.reg rs2)) imm s

/-- FENCE, R168: "a pure no-op" that commits `pc + 4`; every field is ignored (R85, R56). -/
def execFence (_fm _pred _succ : BitVec 4) (_rs1 _rd : RegIdx) (s : State) : Host.Outcome State Fault Refusal :=
  commitPc s.nextPc s

end Sys2Proof.Machine
end

