-- ==== Sys2Proof/Machine/MemoryAccess.lean ====
section
/-! DEFINITION. Loads and stores (spec/44_memory_access.md). An access out of range raises MemoryFault and commits nothing (R194); any
alignment is good (R49). Each that does not fault commits `pc + 4` (R195). -/

namespace Sys2Proof.Machine

/-- The common part of the loads (R191, R192): read `n` bytes, extend, write `rd`. With `rd = x0` the access is still made
and can still fault. -/
def load (d : Dram) (n : Width) (extend : Word → Word) (rd rs1 : RegIdx) (imm : BitVec 12) (s : State) : Host.Outcome State Fault Refusal :=
  match s.mem.read d (loadAddress rs1 imm s) n with
  | some v => commitReg rd (extend v) s
  | none => raiseMemoryFault d (loadAddress rs1 imm s) n s

/-- The common part of the stores (R191, R193): write the low `n` bytes of `x[rs2]`. -/
def store (d : Dram) (n : Width) (rs1 rs2 : RegIdx) (imm : BitVec 12) (s : State) : Host.Outcome State Fault Refusal :=
  match s.mem.write d (storeAddress rs1 imm s) n (s.reg rs2) with
  | some m => .next { s with mem := m, pc := s.nextPc }
  | none => raiseMemoryFault d (storeAddress rs1 imm s) n s

/-- LB, R180: `x[rd] <- sext_8(MemRead(addr, 1))`. -/
def execLbAt (d : Dram) (rd rs1 : RegIdx) (imm : BitVec 12) (s : State) : Host.Outcome State Fault Refusal :=
  load d .byte (sextLow 8) rd rs1 imm s

/-- LB at the chosen DRAM (log entry 1). -/
def execLb (rd rs1 : RegIdx) (imm : BitVec 12) (s : State) : Host.Outcome State Fault Refusal :=
  execLbAt Config.dram rd rs1 imm s

/-- LH, R181: `x[rd] <- sext_16(MemRead(addr, 2))`. -/
def execLhAt (d : Dram) (rd rs1 : RegIdx) (imm : BitVec 12) (s : State) : Host.Outcome State Fault Refusal :=
  load d .half (sextLow 16) rd rs1 imm s

/-- LH at the chosen DRAM (log entry 1). -/
def execLh (rd rs1 : RegIdx) (imm : BitVec 12) (s : State) : Host.Outcome State Fault Refusal :=
  execLhAt Config.dram rd rs1 imm s

/-- LW, R182: `x[rd] <- sext_32(MemRead(addr, 4))`. -/
def execLwAt (d : Dram) (rd rs1 : RegIdx) (imm : BitVec 12) (s : State) : Host.Outcome State Fault Refusal :=
  load d .word (sextLow 32) rd rs1 imm s

/-- LW at the chosen DRAM (log entry 1). -/
def execLw (rd rs1 : RegIdx) (imm : BitVec 12) (s : State) : Host.Outcome State Fault Refusal :=
  execLwAt Config.dram rd rs1 imm s

/-- LD, R183: `x[rd] <- MemRead(addr, 8)`. -/
def execLdAt (d : Dram) (rd rs1 : RegIdx) (imm : BitVec 12) (s : State) : Host.Outcome State Fault Refusal :=
  load d .double id rd rs1 imm s

/-- LD at the chosen DRAM (log entry 1). -/
def execLd (rd rs1 : RegIdx) (imm : BitVec 12) (s : State) : Host.Outcome State Fault Refusal :=
  execLdAt Config.dram rd rs1 imm s

/-- LBU, R184: `x[rd] <- zext_8(MemRead(addr, 1))`. -/
def execLbuAt (d : Dram) (rd rs1 : RegIdx) (imm : BitVec 12) (s : State) : Host.Outcome State Fault Refusal :=
  load d .byte (zextLow 8) rd rs1 imm s

/-- LBU at the chosen DRAM (log entry 1). -/
def execLbu (rd rs1 : RegIdx) (imm : BitVec 12) (s : State) : Host.Outcome State Fault Refusal :=
  execLbuAt Config.dram rd rs1 imm s

/-- LHU, R185: `x[rd] <- zext_16(MemRead(addr, 2))`. -/
def execLhuAt (d : Dram) (rd rs1 : RegIdx) (imm : BitVec 12) (s : State) : Host.Outcome State Fault Refusal :=
  load d .half (zextLow 16) rd rs1 imm s

/-- LHU at the chosen DRAM (log entry 1). -/
def execLhu (rd rs1 : RegIdx) (imm : BitVec 12) (s : State) : Host.Outcome State Fault Refusal :=
  execLhuAt Config.dram rd rs1 imm s

/-- LWU, R186: `x[rd] <- zext_32(MemRead(addr, 4))`. -/
def execLwuAt (d : Dram) (rd rs1 : RegIdx) (imm : BitVec 12) (s : State) : Host.Outcome State Fault Refusal :=
  load d .word (zextLow 32) rd rs1 imm s

/-- LWU at the chosen DRAM (log entry 1). -/
def execLwu (rd rs1 : RegIdx) (imm : BitVec 12) (s : State) : Host.Outcome State Fault Refusal :=
  execLwuAt Config.dram rd rs1 imm s

/-- SB, R187: `MemWrite(addr, 1, x[rs2])`. -/
def execSbAt (d : Dram) (rs1 rs2 : RegIdx) (imm : BitVec 12) (s : State) : Host.Outcome State Fault Refusal :=
  store d .byte rs1 rs2 imm s

/-- SB at the chosen DRAM (log entry 1). -/
def execSb (rs1 rs2 : RegIdx) (imm : BitVec 12) (s : State) : Host.Outcome State Fault Refusal :=
  execSbAt Config.dram rs1 rs2 imm s

/-- SH, R188: `MemWrite(addr, 2, x[rs2])`. -/
def execShAt (d : Dram) (rs1 rs2 : RegIdx) (imm : BitVec 12) (s : State) : Host.Outcome State Fault Refusal :=
  store d .half rs1 rs2 imm s

/-- SH at the chosen DRAM (log entry 1). -/
def execSh (rs1 rs2 : RegIdx) (imm : BitVec 12) (s : State) : Host.Outcome State Fault Refusal :=
  execShAt Config.dram rs1 rs2 imm s

/-- SW, R189: `MemWrite(addr, 4, x[rs2])`. -/
def execSwAt (d : Dram) (rs1 rs2 : RegIdx) (imm : BitVec 12) (s : State) : Host.Outcome State Fault Refusal :=
  store d .word rs1 rs2 imm s

/-- SW at the chosen DRAM (log entry 1). -/
def execSw (rs1 rs2 : RegIdx) (imm : BitVec 12) (s : State) : Host.Outcome State Fault Refusal :=
  execSwAt Config.dram rs1 rs2 imm s

/-- SD, R190: `MemWrite(addr, 8, x[rs2])`. -/
def execSdAt (d : Dram) (rs1 rs2 : RegIdx) (imm : BitVec 12) (s : State) : Host.Outcome State Fault Refusal :=
  store d .double rs1 rs2 imm s

/-- SD at the chosen DRAM (log entry 1). -/
def execSd (rs1 rs2 : RegIdx) (imm : BitVec 12) (s : State) : Host.Outcome State Fault Refusal :=
  execSdAt Config.dram rs1 rs2 imm s

end Sys2Proof.Machine
end

