-- ==== Sys2Proof/Machine/UpperImmediate.lean ====
section
/-! DEFINITION. The upper-immediate family (spec/42_upper_immediate.md). Neither can trap; both commit `pc + 4` (R152). -/

namespace Sys2Proof.Machine

/-- LUI, R150: `x[rd] <- imm_U`. -/
def execLui (rd : RegIdx) (imm : BitVec 20) (s : State) : Host.Outcome State Fault Refusal :=
  commitReg rd (immU imm) s

/-- AUIPC, R151: `x[rd] <- pc + imm_U`, pc of this AUIPC. -/
def execAuipc (rd : RegIdx) (imm : BitVec 20) (s : State) : Host.Outcome State Fault Refusal :=
  commitReg rd (s.pc + immU imm) s

end Sys2Proof.Machine
end

