-- ==== Sys2Proof/Machine/WordOps.lean ====
section
/-! DEFINITION. The word family (spec/41_word_ops.md): "Compute the operation on the low 32 bits of the operands ... then sign-extend
the resulting 32-bit value" (R139). None can trap; each commits `pc + 4` (R143). All nine are present (PRESUMED, log entry 6). -/

namespace Sys2Proof.Machine

/-- ADDIW, R130: `x[rd] <- sext_32((x[rs1] + imm_I)[31:0])`. -/
def execAddiw (rd rs1 : RegIdx) (imm : BitVec 12) (s : State) : Host.Outcome State Fault Refusal :=
  commitReg rd (sextWord (lowWord (s.reg rs1 + immI imm))) s

/-- SLLIW, R131: `x[rd] <- sext_32((x[rs1][31:0] << shamt5)[31:0])`. -/
def execSlliw (rd rs1 : RegIdx) (shamt : BitVec 5) (s : State) : Host.Outcome State Fault Refusal :=
  commitReg rd (sextWord (lowWord (s.reg rs1) <<< shamt.toNat)) s

/-- SRLIW, R132: `x[rd] <- sext_32(x[rs1][31:0] >>u shamt5)`, a 32-bit shift. -/
def execSrliw (rd rs1 : RegIdx) (shamt : BitVec 5) (s : State) : Host.Outcome State Fault Refusal :=
  commitReg rd (sextWord (lowWord (s.reg rs1) >>> shamt.toNat)) s

/-- SRAIW, R133: `x[rd] <- sext_32(x[rs1][31:0] >>s shamt5)`, a 32-bit shift that fills with bit 31. -/
def execSraiw (rd rs1 : RegIdx) (shamt : BitVec 5) (s : State) : Host.Outcome State Fault Refusal :=
  commitReg rd (sextWord ((lowWord (s.reg rs1)).sshiftRight shamt.toNat)) s

/-- ADDW, R134: `x[rd] <- sext_32((x[rs1] + x[rs2])[31:0])`. -/
def execAddw (rd rs1 rs2 : RegIdx) (s : State) : Host.Outcome State Fault Refusal :=
  commitReg rd (sextWord (lowWord (s.reg rs1 + s.reg rs2))) s

/-- SUBW, R135: `x[rd] <- sext_32((x[rs1] - x[rs2])[31:0])`. -/
def execSubw (rd rs1 rs2 : RegIdx) (s : State) : Host.Outcome State Fault Refusal :=
  commitReg rd (sextWord (lowWord (s.reg rs1 - s.reg rs2))) s

/-- SLLW, R136: `x[rd] <- sext_32((x[rs1][31:0] << x[rs2][4:0])[31:0])`. -/
def execSllw (rd rs1 rs2 : RegIdx) (s : State) : Host.Outcome State Fault Refusal :=
  commitReg rd (sextWord (lowWord (s.reg rs1) <<< shiftAmount5 (s.reg rs2))) s

/-- SRLW, R137: `x[rd] <- sext_32(x[rs1][31:0] >>u x[rs2][4:0])`, a 32-bit shift. -/
def execSrlw (rd rs1 rs2 : RegIdx) (s : State) : Host.Outcome State Fault Refusal :=
  commitReg rd (sextWord (lowWord (s.reg rs1) >>> shiftAmount5 (s.reg rs2))) s

/-- SRAW, R138: `x[rd] <- sext_32(x[rs1][31:0] >>s x[rs2][4:0])`, a 32-bit shift that fills with bit 31. -/
def execSraw (rd rs1 rs2 : RegIdx) (s : State) : Host.Outcome State Fault Refusal :=
  commitReg rd (sextWord ((lowWord (s.reg rs1)).sshiftRight (shiftAmount5 (s.reg rs2)))) s

end Sys2Proof.Machine
end

