-- ==== Sys2Proof/Machine/Step.lean ====
section
/-! DEFINITION. The step function (spec/60_exceptions.md R205) and the placing of one instruction where it is fetched next. -/

namespace Sys2Proof.Machine

/-- One fetch, decode and execute (R205, R208): a fetch out of range is a MemoryFault, a word that does not decode an
IllegalInstruction, and else the step is the instruction's. DRAM is the chosen one (log entry 1); `stepAt` takes any. -/
def step (s : State) : Host.Outcome State Fault Refusal :=
  match s.fetchedWord Config.dram with
  | none => raiseMemoryFault Config.dram s.pc .word s
  | some w =>
    match decode w with
    | .error _ => raiseIllegalInstruction w s
    | .ok i => exec i s

/-- `s` with the instruction word of an opcode-table row stored, little-endian, at `pc`: it stands for the loader's
placing of an image (R15, R231; DEDUCED, log entry 4). Where `pc` cannot be fetched from, nothing can be placed and `s` is left
as it is (DESIGN CHOICE, log entry 17). -/
def State.withFetchWord (s : State) (nbits w : Nat) : State :=
  s.placeWord Config.dram (tableWord nbits w)

end Sys2Proof.Machine
end

