-- ==== Sys2Proof/Machine/AtDram.lean ====
section
/-! DEFINITION. The machine at any `DRAM_BASE` and `DRAM_SIZE`: a function "of `S` and the parameters alone"
(spec/60_exceptions.md R205; spec/00_scope.md R11; spec/10_state.md R20). `exec` and `step`, whose types have room for the
state only, are these at `Config.dram` (log entry 1); the meanings are the same definitions. -/

namespace Sys2Proof.Machine

/-- Stage 3 of R205 with the parameters as an argument. Only the loads and stores use them. -/
def execAt (d : Dram) (i : Instr) (s : State) : Host.Outcome State Fault Refusal :=
  match i with
  -- Arithmetic and logic (40_arith_logic.md)
  | .addi rd rs1 imm => execAddi rd rs1 imm s
  | .slti rd rs1 imm => execSlti rd rs1 imm s
  | .sltiu rd rs1 imm => execSltiu rd rs1 imm s
  | .xori rd rs1 imm => execXori rd rs1 imm s
  | .ori rd rs1 imm => execOri rd rs1 imm s
  | .andi rd rs1 imm => execAndi rd rs1 imm s
  | .slli rd rs1 shamt => execSlli rd rs1 shamt s
  | .srli rd rs1 shamt => execSrli rd rs1 shamt s
  | .srai rd rs1 shamt => execSrai rd rs1 shamt s
  | .add rd rs1 rs2 => execAdd rd rs1 rs2 s
  | .sub rd rs1 rs2 => execSub rd rs1 rs2 s
  | .sll rd rs1 rs2 => execSll rd rs1 rs2 s
  | .slt rd rs1 rs2 => execSlt rd rs1 rs2 s
  | .sltu rd rs1 rs2 => execSltu rd rs1 rs2 s
  | .xor rd rs1 rs2 => execXor rd rs1 rs2 s
  | .srl rd rs1 rs2 => execSrl rd rs1 rs2 s
  | .sra rd rs1 rs2 => execSra rd rs1 rs2 s
  | .or rd rs1 rs2 => execOr rd rs1 rs2 s
  | .and rd rs1 rs2 => execAnd rd rs1 rs2 s
  -- Word (41_word_ops.md)
  | .addiw rd rs1 imm => execAddiw rd rs1 imm s
  | .slliw rd rs1 shamt => execSlliw rd rs1 shamt s
  | .srliw rd rs1 shamt => execSrliw rd rs1 shamt s
  | .sraiw rd rs1 shamt => execSraiw rd rs1 shamt s
  | .addw rd rs1 rs2 => execAddw rd rs1 rs2 s
  | .subw rd rs1 rs2 => execSubw rd rs1 rs2 s
  | .sllw rd rs1 rs2 => execSllw rd rs1 rs2 s
  | .srlw rd rs1 rs2 => execSrlw rd rs1 rs2 s
  | .sraw rd rs1 rs2 => execSraw rd rs1 rs2 s
  -- Upper immediate (42_upper_immediate.md)
  | .lui rd imm => execLui rd imm s
  | .auipc rd imm => execAuipc rd imm s
  -- Control flow and FENCE (43_control_flow.md)
  | .jal rd imm => execJal rd imm s
  | .jalr rd rs1 imm => execJalr rd rs1 imm s
  | .beq rs1 rs2 imm => execBeq rs1 rs2 imm s
  | .bne rs1 rs2 imm => execBne rs1 rs2 imm s
  | .blt rs1 rs2 imm => execBlt rs1 rs2 imm s
  | .bge rs1 rs2 imm => execBge rs1 rs2 imm s
  | .bltu rs1 rs2 imm => execBltu rs1 rs2 imm s
  | .bgeu rs1 rs2 imm => execBgeu rs1 rs2 imm s
  | .fence fm pred succ rs1 rd => execFence fm pred succ rs1 rd s
  -- Loads and stores (44_memory_access.md)
  | .lb rd rs1 imm => execLbAt d rd rs1 imm s
  | .lh rd rs1 imm => execLhAt d rd rs1 imm s
  | .lw rd rs1 imm => execLwAt d rd rs1 imm s
  | .ld rd rs1 imm => execLdAt d rd rs1 imm s
  | .lbu rd rs1 imm => execLbuAt d rd rs1 imm s
  | .lhu rd rs1 imm => execLhuAt d rd rs1 imm s
  | .lwu rd rs1 imm => execLwuAt d rd rs1 imm s
  | .sb rs1 rs2 imm => execSbAt d rs1 rs2 imm s
  | .sh rs1 rs2 imm => execShAt d rs1 rs2 imm s
  | .sw rs1 rs2 imm => execSwAt d rs1 rs2 imm s
  | .sd rs1 rs2 imm => execSdAt d rs1 rs2 imm s

/-- One step with the parameters as an argument (R205, R208). -/
def stepAt (d : Dram) (s : State) : Host.Outcome State Fault Refusal :=
  match s.fetchedWord d with
  | none => raiseMemoryFault d s.pc .word s
  | some w =>
    match decode w with
    | .error _ => raiseIllegalInstruction w s
    | .ok i => execAt d i s

end Sys2Proof.Machine
end

