-- ==== Sys2Proof/Machine/Boot.lean ====
section
/-! DEFINITION. Reset and load for any parameters (spec/00_scope.md R11, R15; spec/10_state.md R36;
spec/70_reset_and_hazards.md R230, R231). -/

namespace Sys2Proof.Machine

/-- The cells of `n` bytes of contents `f`, from offset `k` of a buffer at `base`, in canonical form. -/
def cellsOf (base : Nat) (f : Nat → Byte) (k : Nat) : Nat → List Host.Cell
  | 0 => []
  | n + 1 =>
    if f k = Config.unlistedByte then cellsOf base f (k + 1) n
    else (base + k, f k) :: cellsOf base f (k + 1) n

/-- The state when the first step begins, for the open parameters `p` (R36). The loaded image is part of `MEM_INIT` (R231). -/
def State.boot (p : Params) : State where
  x := Vector.ofFn fun i : Fin 32 => if i = 0 then 0#64 else p.xregReset (BitVec.ofFin i)
  pc := p.dram.base
  mem := { cells := cellsOf p.dram.base.toNat p.memInit 0 p.dram.size }

/-- `MEM_INIT` of a raw byte image placed at `DRAM_BASE` (R15), over contents `rest` for the bytes it does not cover. -/
def imageContents (image : List Byte) (rest : Nat → Byte) (k : Nat) : Byte := image[k]?.getD (rest k)

end Sys2Proof.Machine
end

