-- ==== Sys2Proof/Machine/Observe.lean ====
section
/-! DEFINITION. The observation interface (spec/00_scope.md R14; spec/10_state.md R24): read accessors for registers by index
and by name and for pc. They read and never write; there is none for memory (spec/60_exceptions.md R218). -/

namespace Sys2Proof.Machine

/-- `getRegisterByIndex(i)`: a read port with a 5-bit index (R14). -/
def State.getRegisterByIndex (s : State) (i : RegIdx) : Word := s.reg i

/-- The 33 names of R24, `a0` the source's and the others general knowledge (PRESUMED, log entry 16). -/
def registerNames : List (String × RegIdx) := [
  ("zero", 0#5), ("ra", 1#5), ("sp", 2#5), ("gp", 3#5), ("tp", 4#5), ("t0", 5#5), ("t1", 6#5), ("t2", 7#5),
  ("s0", 8#5), ("fp", 8#5), ("s1", 9#5), ("a0", 10#5), ("a1", 11#5), ("a2", 12#5), ("a3", 13#5), ("a4", 14#5),
  ("a5", 15#5), ("a6", 16#5), ("a7", 17#5), ("s2", 18#5), ("s3", 19#5), ("s4", 20#5), ("s5", 21#5), ("s6", 22#5),
  ("s7", 23#5), ("s8", 24#5), ("s9", 25#5), ("s10", 26#5), ("s11", 27#5), ("t3", 28#5), ("t4", 29#5), ("t5", 30#5),
  ("t6", 31#5)]

/-- The index of a register name; a name not in the table is the host's error (R24, D12). -/
def registerIndex (name : String) : Option RegIdx := registerNames.lookup name

/-- `getRegisterByName(name)` (R14, R24). -/
def State.getRegisterByName (s : State) (name : String) : Option Word :=
  (registerIndex name).map s.getRegisterByIndex

/-- `pc` as the host reads it between steps (R14, R27). -/
def State.getPc (s : State) : Word := s.pc

end Sys2Proof.Machine
end

