-- ==== Sys2Proof/Safety.lean ====
section
/-! DEFINITION. The terms the claims are stated in: what an instruction may change, the invariant of a run, and how a run
ends (spec/70_reset_and_hazards.md R233). -/

namespace Sys2Proof.Machine

/-! ### What an instruction writes and accesses -/

/-- The register an instruction writes: its `rd`, except for "the six branches, the four stores and FENCE"
(spec/10_state.md R25). -/
def destOf : Instr → Option RegIdx
  | .addi rd _ _ => some rd
  | .slti rd _ _ => some rd
  | .sltiu rd _ _ => some rd
  | .xori rd _ _ => some rd
  | .ori rd _ _ => some rd
  | .andi rd _ _ => some rd
  | .slli rd _ _ => some rd
  | .srli rd _ _ => some rd
  | .srai rd _ _ => some rd
  | .add rd _ _ => some rd
  | .sub rd _ _ => some rd
  | .sll rd _ _ => some rd
  | .slt rd _ _ => some rd
  | .sltu rd _ _ => some rd
  | .xor rd _ _ => some rd
  | .srl rd _ _ => some rd
  | .sra rd _ _ => some rd
  | .or rd _ _ => some rd
  | .and rd _ _ => some rd
  | .addiw rd _ _ => some rd
  | .slliw rd _ _ => some rd
  | .srliw rd _ _ => some rd
  | .sraiw rd _ _ => some rd
  | .addw rd _ _ => some rd
  | .subw rd _ _ => some rd
  | .sllw rd _ _ => some rd
  | .srlw rd _ _ => some rd
  | .sraw rd _ _ => some rd
  | .lui rd _ => some rd
  | .auipc rd _ => some rd
  | .jal rd _ => some rd
  | .jalr rd _ _ => some rd
  | .beq _ _ _ => none
  | .bne _ _ _ => none
  | .blt _ _ _ => none
  | .bge _ _ _ => none
  | .bltu _ _ _ => none
  | .bgeu _ _ _ => none
  | .fence _ _ _ _ _ => none
  | .lb rd _ _ => some rd
  | .lh rd _ _ => some rd
  | .lw rd _ _ => some rd
  | .ld rd _ _ => some rd
  | .lbu rd _ _ => some rd
  | .lhu rd _ _ => some rd
  | .lwu rd _ _ => some rd
  | .sb _ _ _ => none
  | .sh _ _ _ => none
  | .sw _ _ _ => none
  | .sd _ _ _ => none

/-- The same instruction with `d` in its `rd` field; an instruction that writes no register is left as it is. -/
def setDest (d : RegIdx) : Instr → Instr
  | .addi _ rs1 imm => .addi d rs1 imm
  | .slti _ rs1 imm => .slti d rs1 imm
  | .sltiu _ rs1 imm => .sltiu d rs1 imm
  | .xori _ rs1 imm => .xori d rs1 imm
  | .ori _ rs1 imm => .ori d rs1 imm
  | .andi _ rs1 imm => .andi d rs1 imm
  | .slli _ rs1 shamt => .slli d rs1 shamt
  | .srli _ rs1 shamt => .srli d rs1 shamt
  | .srai _ rs1 shamt => .srai d rs1 shamt
  | .add _ rs1 rs2 => .add d rs1 rs2
  | .sub _ rs1 rs2 => .sub d rs1 rs2
  | .sll _ rs1 rs2 => .sll d rs1 rs2
  | .slt _ rs1 rs2 => .slt d rs1 rs2
  | .sltu _ rs1 rs2 => .sltu d rs1 rs2
  | .xor _ rs1 rs2 => .xor d rs1 rs2
  | .srl _ rs1 rs2 => .srl d rs1 rs2
  | .sra _ rs1 rs2 => .sra d rs1 rs2
  | .or _ rs1 rs2 => .or d rs1 rs2
  | .and _ rs1 rs2 => .and d rs1 rs2
  | .addiw _ rs1 imm => .addiw d rs1 imm
  | .slliw _ rs1 shamt => .slliw d rs1 shamt
  | .srliw _ rs1 shamt => .srliw d rs1 shamt
  | .sraiw _ rs1 shamt => .sraiw d rs1 shamt
  | .addw _ rs1 rs2 => .addw d rs1 rs2
  | .subw _ rs1 rs2 => .subw d rs1 rs2
  | .sllw _ rs1 rs2 => .sllw d rs1 rs2
  | .srlw _ rs1 rs2 => .srlw d rs1 rs2
  | .sraw _ rs1 rs2 => .sraw d rs1 rs2
  | .lui _ imm => .lui d imm
  | .auipc _ imm => .auipc d imm
  | .jal _ imm => .jal d imm
  | .jalr _ rs1 imm => .jalr d rs1 imm
  | .beq rs1 rs2 imm => .beq rs1 rs2 imm
  | .bne rs1 rs2 imm => .bne rs1 rs2 imm
  | .blt rs1 rs2 imm => .blt rs1 rs2 imm
  | .bge rs1 rs2 imm => .bge rs1 rs2 imm
  | .bltu rs1 rs2 imm => .bltu rs1 rs2 imm
  | .bgeu rs1 rs2 imm => .bgeu rs1 rs2 imm
  | .fence fm pred succ rs1 rd => .fence fm pred succ rs1 rd
  | .lb _ rs1 imm => .lb d rs1 imm
  | .lh _ rs1 imm => .lh d rs1 imm
  | .lw _ rs1 imm => .lw d rs1 imm
  | .ld _ rs1 imm => .ld d rs1 imm
  | .lbu _ rs1 imm => .lbu d rs1 imm
  | .lhu _ rs1 imm => .lhu d rs1 imm
  | .lwu _ rs1 imm => .lwu d rs1 imm
  | .sb rs1 rs2 imm => .sb rs1 rs2 imm
  | .sh rs1 rs2 imm => .sh rs1 rs2 imm
  | .sw rs1 rs2 imm => .sw rs1 rs2 imm
  | .sd rs1 rs2 imm => .sd rs1 rs2 imm

/-- The one data access an instruction makes: its effective address and width (spec/20_memory.md R50; spec/44_memory_access.md
R191). -/
def dataAccess (i : Instr) (s : State) : Option (Word × Width) :=
  match i with
  | .addi _ _ _ => none
  | .slti _ _ _ => none
  | .sltiu _ _ _ => none
  | .xori _ _ _ => none
  | .ori _ _ _ => none
  | .andi _ _ _ => none
  | .slli _ _ _ => none
  | .srli _ _ _ => none
  | .srai _ _ _ => none
  | .add _ _ _ => none
  | .sub _ _ _ => none
  | .sll _ _ _ => none
  | .slt _ _ _ => none
  | .sltu _ _ _ => none
  | .xor _ _ _ => none
  | .srl _ _ _ => none
  | .sra _ _ _ => none
  | .or _ _ _ => none
  | .and _ _ _ => none
  | .addiw _ _ _ => none
  | .slliw _ _ _ => none
  | .srliw _ _ _ => none
  | .sraiw _ _ _ => none
  | .addw _ _ _ => none
  | .subw _ _ _ => none
  | .sllw _ _ _ => none
  | .srlw _ _ _ => none
  | .sraw _ _ _ => none
  | .lui _ _ => none
  | .auipc _ _ => none
  | .jal _ _ => none
  | .jalr _ _ _ => none
  | .beq _ _ _ => none
  | .bne _ _ _ => none
  | .blt _ _ _ => none
  | .bge _ _ _ => none
  | .bltu _ _ _ => none
  | .bgeu _ _ _ => none
  | .fence _ _ _ _ _ => none
  | .lb _ rs1 imm => some (loadAddress rs1 imm s, .byte)
  | .lh _ rs1 imm => some (loadAddress rs1 imm s, .half)
  | .lw _ rs1 imm => some (loadAddress rs1 imm s, .word)
  | .ld _ rs1 imm => some (loadAddress rs1 imm s, .double)
  | .lbu _ rs1 imm => some (loadAddress rs1 imm s, .byte)
  | .lhu _ rs1 imm => some (loadAddress rs1 imm s, .half)
  | .lwu _ rs1 imm => some (loadAddress rs1 imm s, .word)
  | .sb rs1 _ imm => some (storeAddress rs1 imm s, .byte)
  | .sh rs1 _ imm => some (storeAddress rs1 imm s, .half)
  | .sw rs1 _ imm => some (storeAddress rs1 imm s, .word)
  | .sd rs1 _ imm => some (storeAddress rs1 imm s, .double)

/-- The instructions that may commit another pc than `pc + 4` (spec/10_state.md R28). -/
def mayJump : Instr → Bool
  | .addi _ _ _ => false
  | .slti _ _ _ => false
  | .sltiu _ _ _ => false
  | .xori _ _ _ => false
  | .ori _ _ _ => false
  | .andi _ _ _ => false
  | .slli _ _ _ => false
  | .srli _ _ _ => false
  | .srai _ _ _ => false
  | .add _ _ _ => false
  | .sub _ _ _ => false
  | .sll _ _ _ => false
  | .slt _ _ _ => false
  | .sltu _ _ _ => false
  | .xor _ _ _ => false
  | .srl _ _ _ => false
  | .sra _ _ _ => false
  | .or _ _ _ => false
  | .and _ _ _ => false
  | .addiw _ _ _ => false
  | .slliw _ _ _ => false
  | .srliw _ _ _ => false
  | .sraiw _ _ _ => false
  | .addw _ _ _ => false
  | .subw _ _ _ => false
  | .sllw _ _ _ => false
  | .srlw _ _ _ => false
  | .sraw _ _ _ => false
  | .lui _ _ => false
  | .auipc _ _ => false
  | .jal _ _ => true
  | .jalr _ _ _ => true
  | .beq _ _ _ => true
  | .bne _ _ _ => true
  | .blt _ _ _ => true
  | .bge _ _ _ => true
  | .bltu _ _ _ => true
  | .bgeu _ _ _ => true
  | .fence _ _ _ _ _ => false
  | .lb _ _ _ => false
  | .lh _ _ _ => false
  | .lw _ _ _ => false
  | .ld _ _ _ => false
  | .lbu _ _ _ => false
  | .lhu _ _ _ => false
  | .lwu _ _ _ => false
  | .sb _ _ _ => false
  | .sh _ _ _ => false
  | .sw _ _ _ => false
  | .sd _ _ _ => false

/-- The instructions that write memory (spec/10_state.md R34). -/
def isStore : Instr → Bool
  | .addi _ _ _ => false
  | .slti _ _ _ => false
  | .sltiu _ _ _ => false
  | .xori _ _ _ => false
  | .ori _ _ _ => false
  | .andi _ _ _ => false
  | .slli _ _ _ => false
  | .srli _ _ _ => false
  | .srai _ _ _ => false
  | .add _ _ _ => false
  | .sub _ _ _ => false
  | .sll _ _ _ => false
  | .slt _ _ _ => false
  | .sltu _ _ _ => false
  | .xor _ _ _ => false
  | .srl _ _ _ => false
  | .sra _ _ _ => false
  | .or _ _ _ => false
  | .and _ _ _ => false
  | .addiw _ _ _ => false
  | .slliw _ _ _ => false
  | .srliw _ _ _ => false
  | .sraiw _ _ _ => false
  | .addw _ _ _ => false
  | .subw _ _ _ => false
  | .sllw _ _ _ => false
  | .srlw _ _ _ => false
  | .sraw _ _ _ => false
  | .lui _ _ => false
  | .auipc _ _ => false
  | .jal _ _ => false
  | .jalr _ _ _ => false
  | .beq _ _ _ => false
  | .bne _ _ _ => false
  | .blt _ _ _ => false
  | .bge _ _ _ => false
  | .bltu _ _ _ => false
  | .bgeu _ _ _ => false
  | .fence _ _ _ _ _ => false
  | .lb _ _ _ => false
  | .lh _ _ _ => false
  | .lw _ _ _ => false
  | .ld _ _ _ => false
  | .lbu _ _ _ => false
  | .lhu _ _ _ => false
  | .lwu _ _ _ => false
  | .sb _ _ _ => true
  | .sh _ _ _ => true
  | .sw _ _ _ => true
  | .sd _ _ _ => true

/-- The nine word instructions (spec/41_word_ops.md R130 to R138). -/
def isWordOp : Instr → Bool
  | .addi _ _ _ => false
  | .slti _ _ _ => false
  | .sltiu _ _ _ => false
  | .xori _ _ _ => false
  | .ori _ _ _ => false
  | .andi _ _ _ => false
  | .slli _ _ _ => false
  | .srli _ _ _ => false
  | .srai _ _ _ => false
  | .add _ _ _ => false
  | .sub _ _ _ => false
  | .sll _ _ _ => false
  | .slt _ _ _ => false
  | .sltu _ _ _ => false
  | .xor _ _ _ => false
  | .srl _ _ _ => false
  | .sra _ _ _ => false
  | .or _ _ _ => false
  | .and _ _ _ => false
  | .addiw _ _ _ => true
  | .slliw _ _ _ => true
  | .srliw _ _ _ => true
  | .sraiw _ _ _ => true
  | .addw _ _ _ => true
  | .subw _ _ _ => true
  | .sllw _ _ _ => true
  | .srlw _ _ _ => true
  | .sraw _ _ _ => true
  | .lui _ _ => false
  | .auipc _ _ => false
  | .jal _ _ => false
  | .jalr _ _ _ => false
  | .beq _ _ _ => false
  | .bne _ _ _ => false
  | .blt _ _ _ => false
  | .bge _ _ _ => false
  | .bltu _ _ _ => false
  | .bgeu _ _ _ => false
  | .fence _ _ _ _ _ => false
  | .lb _ _ _ => false
  | .lh _ _ _ => false
  | .lw _ _ _ => false
  | .ld _ _ _ => false
  | .lbu _ _ _ => false
  | .lhu _ _ _ => false
  | .lwu _ _ _ => false
  | .sb _ _ _ => false
  | .sh _ _ _ => false
  | .sw _ _ _ => false
  | .sd _ _ _ => false

/-! ### Frames -/

/-- Every register reads as before. -/
def SameRegs (s t : State) : Prop := ∀ r, t.reg r = s.reg r

/-- Every byte of memory reads as before. -/
def SameMemory (s t : State) : Prop := ∀ a, t.mem.byteAt a = s.mem.byteAt a

/-- Register `rd` reads `v` (nothing is written when `rd` is 0) and every other register reads as before. -/
def WritesReg (s t : State) (rd : RegIdx) (v : Word) : Prop :=
  ∀ r, t.reg r = if r = rd ∧ rd ≠ 0#5 then v else s.reg r

/-- The whole effect of an instruction that only writes `rd`: memory is unchanged and pc advances by 4, modulo `2^64`. -/
def RegStep (s t : State) (rd : RegIdx) (v : Word) : Prop :=
  WritesReg s t rd v ∧ SameMemory s t ∧ t.pc.toNat = (s.pc.toNat + 4) % 2 ^ 64

/-- `n` bytes of memory from `addr` up hold the low `n` bytes of `v`, lowest first, and every byte outside
`[addr, addr + n)` reads as before. -/
def WritesBytes (s t : State) (addr : Word) (n : Width) (v : Word) : Prop :=
  (∀ k, k < n.bytes → (t.mem.byteAt (addr.toNat + k)).toNat = v.toNat / 256 ^ k % 256) ∧
  ∀ a, a < addr.toNat ∨ addr.toNat + n.bytes ≤ a → t.mem.byteAt a = s.mem.byteAt a

/-- The value of `k` bytes from `a` up, the lowest address least significant. -/
def leValue (m : Memory) (a : Nat) : Nat → Nat
  | 0 => 0
  | k + 1 => (m.byteAt a).toNat + 256 * leValue m (a + 1) k

/-! ### The machine a claim is about -/

/-- What stage 3 of R205 may be: `exec`, or `execAt` of some DRAM. -/
abbrev Executor := Instr → State → Host.Outcome State Fault Refusal

/-- What a step may be: `step`, or `stepAt` of some DRAM. -/
abbrev Stepper := State → Host.Outcome State Fault Refusal

/-- The claim `P` holds of this model's `step` and `exec`, with the DRAM they have, and of `stepAt d` and `execAt d` for every
other choice of the parameters (R11; log entry 1). -/
def AtEveryDram (P : Dram → Stepper → Executor → Prop) : Prop :=
  P Config.dram step exec ∧ ∀ d, P d (stepAt d) (execAt d)

/-- The instruction answers a next state, and `Q` holds of it. -/
def Completes (exec : Executor) (i : Instr) (s : State) (Q : State → Prop) : Prop := ∃ t, exec i s = .next t ∧ Q t

/-! ### The invariant -/

/-- What holds after reset and is kept by every step: slot 0 of the register file is 0 (R22), pc is even (R29), the
parameters are as spec/00_scope.md R11 says, and the memory image is in canonical form in their region. -/
abbrev State.Inv (s : State) (d : Dram) : Prop :=
  s.x[0] = 0#64 ∧ s.pc.toNat % 2 = 0 ∧ s.mem.wfIn d = true

/-! ### Runs -/

/-- How a run ends (R233). -/
inductive RunEnd where
  /-- (a) the state after exactly `N` steps, none of which trapped -/
  | steps (t : State)
  /-- (b) the trap record and the unchanged state before the step that returned it -/
  | firstTrap (f : Fault) (before : State)
  /-- an instruction without a meaning: no step of this model answers so -/
  | noMeaning (r : Refusal) (before : State)

/-- A run of at most `N` steps, ended by the first trap (R207, R233; DESIGN CHOICE, log entry 19). -/
def run (step : Stepper) : Nat → State → RunEnd
  | 0, s => .steps s
  | k + 1, s =>
    match step s with
    | .next t => run step k t
    | .fault f => .firstTrap f s
    | .refused r => .noMeaning r s

/-- `k` steps from `s` are taken without a trap. -/
def TrapFree (step : Stepper) (k : Nat) (s : State) : Prop := ∃ t, run step k s = .steps t

end Sys2Proof.Machine
end

