-- ==== Sys2Proof/Certificates/Slice0/Obligations.lean ====
section
/-! DEFINITION. The statements for the provers. Each is a claim about the machine over every state and operand that meets its
hypotheses; its docstring cites the rule of spec/ it formalises. Log entries are notes/assumptions/<n>.md. -/

open Sys2Proof Sys2Proof.Machine

namespace Sys2Proof.Claims

/-- `inst[hi:lo]` as a number (spec/00_scope.md R17). -/
def slice (w : InstWord) (hi lo : Nat) : Nat := w.toNat / 2 ^ lo % 2 ^ (hi - lo + 1)

/-- The two's-complement reading of an `N`-bit number. -/
def signedOf (N v : Nat) : Int := Int.bmod v (2 ^ N)

/-- The value of a 0-or-1 result (spec/40_arith_logic.md R121). -/
def boolWord (c : Prop) [Decidable c] : Word := if c then 1#64 else 0#64

/-- The sum of an address and a signed offset, modulo `2^64`. -/
def offsetBy (base : Word) (off : Int) : Word := BitVec.ofInt 64 (base.toInt + off)

/-! ### The fields of a decoded word (spec/30_encoding.md R71 to R79) -/

def RFields (w : InstWord) (rd rs1 rs2 : RegIdx) : Prop :=
  rd.toNat = slice w 11 7 ∧ rs1.toNat = slice w 19 15 ∧ rs2.toNat = slice w 24 20

def IFields (w : InstWord) (rd rs1 : RegIdx) (imm : BitVec 12) : Prop :=
  rd.toNat = slice w 11 7 ∧ rs1.toNat = slice w 19 15 ∧ (immI imm).toInt = signedOf 12 (slice w 31 20)

def Shift6Fields (w : InstWord) (rd rs1 : RegIdx) (shamt : BitVec 6) : Prop :=
  rd.toNat = slice w 11 7 ∧ rs1.toNat = slice w 19 15 ∧ shamt.toNat = slice w 25 20

def Shift5Fields (w : InstWord) (rd rs1 : RegIdx) (shamt : BitVec 5) : Prop :=
  rd.toNat = slice w 11 7 ∧ rs1.toNat = slice w 19 15 ∧ shamt.toNat = slice w 24 20

def SFields (w : InstWord) (rs1 rs2 : RegIdx) (imm : BitVec 12) : Prop :=
  rs1.toNat = slice w 19 15 ∧ rs2.toNat = slice w 24 20 ∧
  (immS imm).toInt = signedOf 12 (slice w 31 25 * 2 ^ 5 + slice w 11 7)

def BFields (w : InstWord) (rs1 rs2 : RegIdx) (imm : BitVec 13) : Prop :=
  rs1.toNat = slice w 19 15 ∧ rs2.toNat = slice w 24 20 ∧
  (immB imm).toInt =
    signedOf 13 (slice w 31 31 * 2 ^ 12 + slice w 7 7 * 2 ^ 11 + slice w 30 25 * 2 ^ 5 + slice w 11 8 * 2)

def UFields (w : InstWord) (rd : RegIdx) (imm : BitVec 20) : Prop :=
  rd.toNat = slice w 11 7 ∧ (immU imm).toInt = signedOf 32 (slice w 31 12 * 2 ^ 12)

def JFields (w : InstWord) (rd : RegIdx) (imm : BitVec 21) : Prop :=
  rd.toNat = slice w 11 7 ∧
  (immJ imm).toInt =
    signedOf 21 (slice w 31 31 * 2 ^ 20 + slice w 19 12 * 2 ^ 12 + slice w 20 20 * 2 ^ 11 + slice w 30 21 * 2)

/-- Every field of the instruction is the slice of the word that the rules name. -/
def FieldsOf (w : InstWord) : Instr → Prop
  | .addi rd rs1 imm => IFields w rd rs1 imm
  | .slti rd rs1 imm => IFields w rd rs1 imm
  | .sltiu rd rs1 imm => IFields w rd rs1 imm
  | .xori rd rs1 imm => IFields w rd rs1 imm
  | .ori rd rs1 imm => IFields w rd rs1 imm
  | .andi rd rs1 imm => IFields w rd rs1 imm
  | .slli rd rs1 shamt => Shift6Fields w rd rs1 shamt
  | .srli rd rs1 shamt => Shift6Fields w rd rs1 shamt
  | .srai rd rs1 shamt => Shift6Fields w rd rs1 shamt
  | .add rd rs1 rs2 => RFields w rd rs1 rs2
  | .sub rd rs1 rs2 => RFields w rd rs1 rs2
  | .sll rd rs1 rs2 => RFields w rd rs1 rs2
  | .slt rd rs1 rs2 => RFields w rd rs1 rs2
  | .sltu rd rs1 rs2 => RFields w rd rs1 rs2
  | .xor rd rs1 rs2 => RFields w rd rs1 rs2
  | .srl rd rs1 rs2 => RFields w rd rs1 rs2
  | .sra rd rs1 rs2 => RFields w rd rs1 rs2
  | .or rd rs1 rs2 => RFields w rd rs1 rs2
  | .and rd rs1 rs2 => RFields w rd rs1 rs2
  | .addiw rd rs1 imm => IFields w rd rs1 imm
  | .slliw rd rs1 shamt => Shift5Fields w rd rs1 shamt
  | .srliw rd rs1 shamt => Shift5Fields w rd rs1 shamt
  | .sraiw rd rs1 shamt => Shift5Fields w rd rs1 shamt
  | .addw rd rs1 rs2 => RFields w rd rs1 rs2
  | .subw rd rs1 rs2 => RFields w rd rs1 rs2
  | .sllw rd rs1 rs2 => RFields w rd rs1 rs2
  | .srlw rd rs1 rs2 => RFields w rd rs1 rs2
  | .sraw rd rs1 rs2 => RFields w rd rs1 rs2
  | .lui rd imm => UFields w rd imm
  | .auipc rd imm => UFields w rd imm
  | .jal rd imm => JFields w rd imm
  | .jalr rd rs1 imm => IFields w rd rs1 imm
  | .beq rs1 rs2 imm => BFields w rs1 rs2 imm
  | .bne rs1 rs2 imm => BFields w rs1 rs2 imm
  | .blt rs1 rs2 imm => BFields w rs1 rs2 imm
  | .bge rs1 rs2 imm => BFields w rs1 rs2 imm
  | .bltu rs1 rs2 imm => BFields w rs1 rs2 imm
  | .bgeu rs1 rs2 imm => BFields w rs1 rs2 imm
  | .fence fm pred succ rs1 rd =>
    fm.toNat = slice w 31 28 ∧ pred.toNat = slice w 27 24 ∧ succ.toNat = slice w 23 20 ∧
    rs1.toNat = slice w 19 15 ∧ rd.toNat = slice w 11 7
  | .lb rd rs1 imm => IFields w rd rs1 imm
  | .lh rd rs1 imm => IFields w rd rs1 imm
  | .lw rd rs1 imm => IFields w rd rs1 imm
  | .ld rd rs1 imm => IFields w rd rs1 imm
  | .lbu rd rs1 imm => IFields w rd rs1 imm
  | .lhu rd rs1 imm => IFields w rd rs1 imm
  | .lwu rd rs1 imm => IFields w rd rs1 imm
  | .sb rs1 rs2 imm => SFields w rs1 rs2 imm
  | .sh rs1 rs2 imm => SFields w rs1 rs2 imm
  | .sw rs1 rs2 imm => SFields w rs1 rs2 imm
  | .sd rs1 rs2 imm => SFields w rs1 rs2 imm

/-! ### Illegal and canonical words -/

/-- The illegal words, item by item (spec/30_encoding.md R86). -/
def IllegalWord (w : InstWord) : Prop :=
  let op := slice w 6 0
  let f3 := slice w 14 12
  let f7 := slice w 31 25
  op ∉ [0x03, 0x0F, 0x13, 0x17, 0x1B, 0x23, 0x33, 0x37, 0x3B, 0x63, 0x67, 0x6F] ∨
  (op = 0x67 ∧ f3 ≠ 0) ∨
  (op = 0x63 ∧ (f3 = 2 ∨ f3 = 3)) ∨
  (op = 0x03 ∧ f3 = 7) ∨
  (op = 0x23 ∧ 4 ≤ f3) ∨
  (op = 0x0F ∧ f3 ≠ 0) ∨
  (op = 0x33 ∧ ¬ (f7 = 0 ∨ (f7 = 0x20 ∧ (f3 = 0 ∨ f3 = 5)))) ∨
  (op = 0x1B ∧ ¬ (f3 = 0 ∨ (f3 = 1 ∧ f7 = 0) ∨ (f3 = 5 ∧ (f7 = 0 ∨ f7 = 0x20)))) ∨
  (op = 0x3B ∧ ¬ ((f7 = 0 ∧ (f3 = 0 ∨ f3 = 1 ∨ f3 = 5)) ∨ (f7 = 0x20 ∧ (f3 = 0 ∨ f3 = 5))))

/-- A word whose ignored bits have the value the standard assembler emits (spec/30_encoding.md R87, R90): of the words that
decode, only the 64-bit shift immediates have others. -/
def CanonicalWord (w : InstWord) : Prop :=
  slice w 6 0 = 0x13 →
    (slice w 14 12 = 1 → slice w 31 26 = 0) ∧ (slice w 14 12 = 5 → slice w 31 26 = 0 ∨ slice w 31 26 = 16)

/-! ### The shapes of an instruction's effect -/

/-- A conditional branch: pc is the target or `pc + 4`, and nothing else changes (spec/43_control_flow.md R173). -/
def BranchStep (s t : State) (imm : BitVec 13) (c : Prop) : Prop :=
  SameRegs s t ∧ SameMemory s t ∧ (c → t.pc = offsetBy s.pc imm.toInt) ∧ (¬ c → t.pc = offsetBy s.pc 4)

/-- The instruction is a jump or a branch that is taken, and its target is `a` (spec/43_control_flow.md R160, R161, R173). -/
def JumpsTo (i : Instr) (s : State) (a : Word) : Prop :=
  (∃ rd imm, i = .jal rd imm ∧ a = offsetBy s.pc imm.toInt) ∨
  (∃ rd rs1 imm, i = .jalr rd rs1 imm ∧ (a.toNat : Int) = ((s.reg rs1).toInt + imm.toInt) % 2 ^ 64 / 2 * 2) ∨
  ∃ rs1 rs2 imm, a = offsetBy s.pc imm.toInt ∧
    ((i = .beq rs1 rs2 imm ∧ s.reg rs1 = s.reg rs2) ∨ (i = .bne rs1 rs2 imm ∧ s.reg rs1 ≠ s.reg rs2) ∨
     (i = .blt rs1 rs2 imm ∧ (s.reg rs1).toInt < (s.reg rs2).toInt) ∨ (i = .bge rs1 rs2 imm ∧ (s.reg rs1).toInt ≥ (s.reg rs2).toInt) ∨
     (i = .bltu rs1 rs2 imm ∧ (s.reg rs1).toNat < (s.reg rs2).toNat) ∨ (i = .bgeu rs1 rs2 imm ∧ (s.reg rs1).toNat ≥ (s.reg rs2).toNat))

/-- A load that completes: `rd` holds a value with `Q`, and nothing else but pc changes (spec/44_memory_access.md R192). -/
def LoadStep (exec : Executor) (i : Instr) (s : State) (rd : RegIdx) (Q : Word → Prop) : Prop :=
  Completes exec i s fun t => ∃ v, Q v ∧ RegStep s t rd v

/-- A store that completes: the low bytes of `v` are written at `addr` and nothing else but pc changes
(spec/44_memory_access.md R193). -/
def StoreStep (exec : Executor) (i : Instr) (s : State) (addr : Word) (n : Width) (v : Word) : Prop :=
  Completes exec i s fun t => SameRegs s t ∧ WritesBytes s t addr n v ∧ t.pc = offsetBy s.pc 4

end Sys2Proof.Claims

open Sys2Proof.Claims

/-- For every well-formed instruction, with every operand at every value, the encoded word decodes to that instruction, and it is a canonical word (R90). -/
def Obligations.DecodeOfEncodeIsIdentity : Prop :=
  ∀ i : Instr, i.wellFormed = true → decode (encode i) = .ok i ∧ CanonicalWord (encode i)

/-- For every 32-bit word that decodes and whose ignored bits are canonical, encoding the decoded instruction gives the same word; FENCE keeps all its fields (R90). -/
def Obligations.EncodeOfDecodeIsIdentityOnCanonicalWords : Prop :=
  ∀ (w : InstWord) (i : Instr), decode w = .ok i → CanonicalWord w → encode i = w

/-- For every word and every row of the table of R84: the word decodes to an instruction of that mnemonic if and only if word & mask = match; the table has 50 rows, every decoded instruction is some row's, and no two rows match the same word. The codes are the standard ones the spec adopts as general knowledge (log entry 5). -/
def Obligations.DecodeAgreesWithOpcodeTable : Prop :=
  opcodeTable.length = 50 ∧
  (∀ (w : InstWord), ∀ r ∈ opcodeTable,
    (∃ i, decode w = .ok i ∧ i.mnemonic = r.mnemonic) ↔ w &&& r.mask = r.pattern) ∧
  (∀ (w : InstWord) (i : Instr), decode w = .ok i → ∃ r ∈ opcodeTable, r.mnemonic = i.mnemonic) ∧
  (∀ (w : InstWord), ∀ r ∈ opcodeTable, ∀ r' ∈ opcodeTable,
    w &&& r.mask = r.pattern → w &&& r'.mask = r'.pattern → r = r')

/-- For every word that decodes: rd, rs1, rs2 are inst[11:7], inst[19:15], inst[24:20]; the 64-bit immediates of formats I, S, B, U, J are the signed values of the bits R74 to R78 name; shift amounts are inst[25:20] or inst[24:20] (R79). The bit positions are the standard ones the spec adopts as general knowledge (log entry 5), the 5-bit amount its decision D14 (log entry 8). -/
def Obligations.DecodedFieldsAreSlicesOfTheWord : Prop :=
  ∀ (w : InstWord) (i : Instr), decode w = .ok i → FieldsOf w i

/-- Every instruction the decoder answers is well formed: its branch or jump immediate has bit 0 zero. -/
def Obligations.DecodedInstructionsAreWellFormed : Prop :=
  ∀ (w : InstWord) (i : Instr), decode w = .ok i → i.wellFormed = true

/-- A word is rejected by the decoder if and only if it is one of the illegal words of R86, items 1 to 9; so it decodes to exactly one instruction otherwise. The stop it leads to is the conclusion of IllegalWordTraps. Items 2 to 9 are the spec's own closing of the source's "unrecognized", D3, D9 and D10 (log entry 13), the strict word shifts its decision D14 (log entry 8), the codes its general knowledge (log entry 5). -/
def Obligations.IllegalWordsAreExactlyTheListed : Prop :=
  ∀ w : InstWord, (∃ e, decode w = .error e) ↔ IllegalWord w

/-- Every OP-IMM word with funct3 001 decodes to SLLI with amount inst[25:20]; with funct3 101 it decodes to SRLI when inst[30] = 0 and to SRAI when inst[30] = 1, with that amount, whatever the other bits of inst[31:26]. That bit 30 selects is the spec's own decision D13 (log entry 7). -/
def Obligations.NonCanonicalShiftImmediatesAreMasked : Prop :=
  ∀ w : InstWord, slice w 6 0 = 0x13 →
    (slice w 14 12 = 1 →
      decode w = .ok (.slli (.ofNat 5 (slice w 11 7)) (.ofNat 5 (slice w 19 15)) (.ofNat 6 (slice w 25 20)))) ∧
    (slice w 14 12 = 5 → slice w 30 30 = 0 →
      decode w = .ok (.srli (.ofNat 5 (slice w 11 7)) (.ofNat 5 (slice w 19 15)) (.ofNat 6 (slice w 25 20)))) ∧
    (slice w 14 12 = 5 → slice w 30 30 = 1 →
      decode w = .ok (.srai (.ofNat 5 (slice w 11 7)) (.ofNat 5 (slice w 19 15)) (.ofNat 6 (slice w 25 20))))

/-- One word of each family, as the spec's examples write them, decodes to the instruction it stands for. -/
def Obligations.SpecExampleWordsDecode : Prop :=
  decode 0xFF600113#32 = .ok (.addi 2#5 0#5 0xFF6#12) ∧ decode 0x407352B3#32 = .ok (.sra 5#5 6#5 7#5) ∧
  decode 0x4033529B#32 = .ok (.sraiw 5#5 6#5 3#5) ∧ decode 0x80000537#32 = .ok (.lui 10#5 0x80000#20) ∧
  decode 0xFFDFF0EF#32 = .ok (.jal 1#5 (.ofInt 21 (-4))) ∧ decode 0xFE029EE3#32 = .ok (.bne 5#5 0#5 (.ofInt 13 (-4))) ∧
  decode 0xFF030283#32 = .ok (.lb 5#5 6#5 (.ofInt 12 (-16))) ∧ decode 0xFE512E23#32 = .ok (.sw 2#5 5#5 (.ofInt 12 (-4)))

/-- When the four bytes at pc can be fetched and decode to an instruction, the step is that instruction's execution at the same state, with pc still the instruction's own address; the step adds nothing around it. Said of step and exec, and of stepAt and execAt at every choice of DRAM_BASE and DRAM_SIZE. -/
def Obligations.StepRunsTheDecodedInstruction : Prop :=
  AtEveryDram fun d step exec =>
    ∀ (s : State) (w : InstWord) (i : Instr), s.fetchedWord d = some w → decode w = .ok i → step s = exec i s

/-- If pc is in range for 4 bytes, the fetched word is the little-endian value of the bytes at pc .. pc+3, at any alignment; if not, the step's result is the MemoryFault record with addr = pc, n = 4 and no word. The byte order of the fetch is the spec's own decision D7 (log entry 11). The fields of the record are its decision D16 (log entry 12). Said of step and exec, and of stepAt and execAt at every choice of DRAM_BASE and DRAM_SIZE. -/
def Obligations.FetchReadsFourBytesAtPcLittleEndian : Prop :=
  AtEveryDram fun d step _ =>
    ∀ s : State,
      (inRange d s.pc .word = true →
        ∃ w, s.fetchedWord d = some w ∧ w.toNat = leValue s.mem s.pc.toNat 4 ∧ slice w 7 0 = (s.mem.byteAt s.pc.toNat).toNat) ∧
      (inRange d s.pc .word = false → step s = .fault (.memoryFault s.pc none s.pc .word))

/-- For every state whose fetch succeeds with a word: the step's result is the IllegalInstruction record with that word and pc if and only if the word is one of R86's illegal words; no instruction raises it in its execute stage. The list of illegal words is the spec's own closing, D3, D9, D10 and D14 (log entries 13 and 8). Said of step and exec, and of stepAt and execAt at every choice of DRAM_BASE and DRAM_SIZE. -/
def Obligations.IllegalWordTraps : Prop :=
  AtEveryDram fun d step _ =>
    ∀ (s : State) (w : InstWord), s.fetchedWord d = some w →
      (IllegalWord w → step s = .fault (.illegalInstruction w s.pc)) ∧
      ((∃ w' p, step s = .fault (.illegalInstruction w' p)) → IllegalWord w)

/-- For every state whose fetched word has inst[6:0] = 1110011, the step's result is IllegalInstruction with that word and pc. That they are illegal is the spec's own decision, D9 and D10 (log entry 13). Said of step and exec, and of stepAt and execAt at every choice of DRAM_BASE and DRAM_SIZE. -/
def Obligations.SystemInstructionsAreIllegal : Prop :=
  AtEveryDram fun d step _ =>
    ∀ (s : State) (w : InstWord), s.fetchedWord d = some w → slice w 6 0 = 0x73 →
      step s = .fault (.illegalInstruction w s.pc)

/-- For every state: some next state is answered if and only if pc is in range for 4 bytes, the fetched word decodes to an instruction, and that instruction's data access (if it makes one) is in range. Nothing else stops a step: no alignment, no target check, no privilege. Said of step and exec, and of stepAt and execAt at every choice of DRAM_BASE and DRAM_SIZE. -/
def Obligations.StepSucceedsExactlyWhenFetchDecodeAndAccessDo : Prop :=
  AtEveryDram fun d step _ =>
    ∀ s : State, (∃ t, step s = .next t) ↔
      inRange d s.pc .word = true ∧
      ∃ w i, s.fetchedWord d = some w ∧ decode w = .ok i ∧
        ∀ a n, dataAccess i s = some (a, n) → inRange d a n = true

/-- For every state and trap record: the step returns that record if and only if (a) the fetch is out of range and the record is (pc, no word, pc, 4); or (b) the fetched word does not decode and the record is IllegalInstruction(word, pc); or (c) it decodes to a load or store whose access is out of range and the record is (pc, the word fetched, effective address, width). The fields of the record are the spec's own decision D16 (log entry 12), the priority its derivation. Said of step and exec, and of stepAt and execAt at every choice of DRAM_BASE and DRAM_SIZE. -/
def Obligations.TrapsHaveThreeOriginsAndTheirRecords : Prop :=
  AtEveryDram fun d step _ =>
    ∀ (s : State) (f : Fault), step s = .fault f ↔
      (inRange d s.pc .word = false ∧ f = .memoryFault s.pc none s.pc .word) ∨
      (∃ w, s.fetchedWord d = some w ∧ (∃ e, decode w = .error e) ∧ f = .illegalInstruction w s.pc) ∨
      (∃ w i a n, s.fetchedWord d = some w ∧ decode w = .ok i ∧ dataAccess i s = some (a, n) ∧
        inRange d a n = false ∧ f = .memoryFault s.pc (some w) a n)

/-- No state makes the step, and no instruction makes exec, answer a refusal. Said of step and exec, and of stepAt and execAt at every choice of DRAM_BASE and DRAM_SIZE. -/
def Obligations.NoStepIsRefused : Prop :=
  AtEveryDram fun _ step exec =>
    (∀ (s : State) (r : Refusal), step s ≠ .refused r) ∧ ∀ (i : Instr) (s : State) (r : Refusal), exec i s ≠ .refused r

/-- For every state with the invariant (slot 0 of the register file is 0; pc is even, R29; DRAM_BASE and DRAM_SIZE meet R11's constraints and the memory list is canonical in their region), if the step answers a next state then that state has the invariant; of step, and of stepAt at every choice of the two parameters. The canonical form is the model's own (log entry 14). -/
def Obligations.EveryStepKeepsTheInvariant : Prop :=
  AtEveryDram fun d step _ => ∀ s t : State, s.Inv d → step s = .next t → t.Inv d

/-- State.reset has the invariant; so has State.boot for every choice of DRAM_BASE, DRAM_SIZE, MEM_INIT and XREG_RESET that meets R11's constraints. -/
def Obligations.ResetStateMeetsTheInvariant : Prop :=
  State.reset.Inv Config.dram ∧ ∀ p : Params, p.dram.Ok → (State.boot p).Inv p.dram

/-- For every choice of the four open parameters, the state when the first step begins has each piece at the value R36's table gives: pc = DRAM_BASE, x0 = 0, x[i] = XREG_RESET(i), byte k of DRAM = MEM_INIT(k) for 0 <= k < DRAM_SIZE. -/
def Obligations.BootStateIsAsTheResetTableSays : Prop :=
  ∀ p : Params,
    (State.boot p).pc = p.dram.base ∧ (State.boot p).reg 0#5 = 0#64 ∧
    (∀ i, i ≠ 0#5 → (State.boot p).reg i = p.xregReset i) ∧
    ∀ k, k < p.dram.size → (State.boot p).mem.byteAt (p.dram.base.toNat + k) = p.memInit k

/-- State.reset is State.boot of DRAM_BASE 0x80000000, DRAM_SIZE 0x100000, all registers 0 and all bytes 0: the model's own choice of values (log entries 1, 2, 3), not the spec's. -/
def Obligations.ResetIsBootOfTheChosenParameters : Prop :=
  State.reset = State.boot Config.params ∧ Config.params.dram = Config.dram ∧ Config.dram.Ok

/-- For all legal parameters whose MEM_INIT is a raw byte image placed at DRAM_BASE, the word the first step fetches is the image's first 4 bytes read little-endian (R231). -/
def Obligations.FirstInstructionIsTheImagesFirstWord : Prop :=
  ∀ (p : Params) (b0 b1 b2 b3 : Byte) (image : List Byte) (rest : Nat → Byte), p.dram.Ok →
    p.memInit = imageContents (b0 :: b1 :: b2 :: b3 :: image) rest →
    ∃ w, (State.boot p).fetchedWord p.dram = some w ∧
      w.toNat = b0.toNat + 256 * b1.toNat + 256 ^ 2 * b2.toNat + 256 ^ 3 * b3.toNat

/-- For every state whose pc is in range and every well-formed instruction: with its encoded word stored at pc (State.placeWord), the fetch gives the word, and the step is the instruction's execution; registers, pc and all other bytes are as before; and State.withFetchWord is that placing at the chosen DRAM. Said of step and exec, and of stepAt and execAt at every choice of DRAM_BASE and DRAM_SIZE. -/
def Obligations.AnInstructionPlacedAtPcRuns : Prop :=
  (AtEveryDram fun d step exec =>
    ∀ (s : State) (i : Instr), i.wellFormed = true → inRange d s.pc .word = true →
      let s' := s.placeWord d (encode i)
      s'.fetchedWord d = some (encode i) ∧ step s' = exec i s' ∧ SameRegs s s' ∧ s'.pc = s.pc ∧
      ∀ a, a < s.pc.toNat ∨ s.pc.toNat + 4 ≤ a → s'.mem.byteAt a = s.mem.byteAt a) ∧
  ∀ (s : State) (i : Instr), s.withFetchWord 32 (encode i).toNat = s.placeWord Config.dram (encode i)

/-- For every instruction and state, when a next state is answered: every register but rd reads as before; unless it is a store, every byte of memory reads as before; unless it is JAL, JALR or a branch, pc is pc + 4 modulo 2^64. Said of step and exec, and of stepAt and execAt at every choice of DRAM_BASE and DRAM_SIZE. -/
def Obligations.OnlyTheDestinationStoresAndJumpsChange : Prop :=
  AtEveryDram fun _ _ exec =>
    ∀ (i : Instr) (s t : State), exec i s = .next t →
      (∀ r, destOf i ≠ some r → t.reg r = s.reg r) ∧
      (isStore i = false → SameMemory s t) ∧
      (mayJump i = false → t.pc.toNat = (s.pc.toNat + 4) % 2 ^ 64)

/-- In every state x0 reads 0; a write to index 0 changes nothing; an instruction whose rd field is 0 leaves every register as it was when it completes, and it executes in full: with any other rd it traps in the same states with the same record, and completes with the same pc, memory and registers but for the one write. That it executes in full is the spec's own derivation. Said of step and exec, and of stepAt and execAt at every choice of DRAM_BASE and DRAM_SIZE. -/
def Obligations.WritesToX0AreDiscarded : Prop :=
  AtEveryDram fun _ _ exec =>
    (∀ s : State, s.reg 0#5 = 0#64) ∧ (∀ (s : State) (v : Word), s.setReg 0#5 v = s) ∧
    ∀ (i : Instr) (s : State) (rd : RegIdx), destOf i = some 0#5 →
      (∀ f, exec i s = .fault f ↔ exec (setDest rd i) s = .fault f) ∧
      ∀ t, exec i s = .next t → SameRegs s t ∧
        ∃ u, exec (setDest rd i) s = .next u ∧ u.pc = t.pc ∧ u.mem = t.mem ∧ ∀ r, r ≠ rd → u.reg r = t.reg r

/-- getRegisterByIndex gives x[i] (0 for index 0); getRegisterByName gives the register of the name's row, a0 being register 10, and none for a name not in the table; every index has a name; the pc accessor gives pc. The names but a0 are general knowledge (log entry 16). -/
def Obligations.ObservationReadsRegistersByIndexAndName : Prop :=
  ∀ s : State,
    s.getRegisterByIndex 0#5 = 0#64 ∧ (∀ i, s.getRegisterByIndex i = s.reg i) ∧
    s.getRegisterByName "a0" = some (s.getRegisterByIndex 10#5) ∧
    (∀ p ∈ registerNames, s.getRegisterByName p.1 = some (s.getRegisterByIndex p.2)) ∧
    (∀ name, name ∉ registerNames.map Prod.fst → s.getRegisterByName name = none) ∧
    (∀ i, ∃ name, registerIndex name = some i) ∧ s.getPc = s.pc

/-- If a run of at most k steps ends in a trap: the step at the state it reports returns that very trap (so stepping again repeats it); that state is the one after fewer than k trap-free steps; and every longer run ends in the same trap and state. That the first trap ends a run is the spec's own decision, D17 and D18 (log entries 12 and 19). Said of step and exec, and of stepAt and execAt at every choice of DRAM_BASE and DRAM_SIZE. -/
def Obligations.ARunStopsAtItsFirstTrap : Prop :=
  AtEveryDram fun _ step _ =>
    ∀ (k : Nat) (s b : State) (f : Fault), run step k s = .firstTrap f b →
      step b = .fault f ∧ (∃ j, j < k ∧ run step j s = .steps b) ∧ ∀ m, k ≤ m → run step m s = .firstTrap f b

/-- When the word at pc is 0x0000006F (jal x0, 0), a run of any number of steps takes all of them without a trap and ends in the same state. What a run is: the spec's decision D18 (log entry 19). Said of step and exec, and of stepAt and execAt at every choice of DRAM_BASE and DRAM_SIZE. -/
def Obligations.SelfLoopIsAFixedPoint : Prop :=
  AtEveryDram fun d step _ =>
    ∀ (s : State) (k : Nat), s.fetchedWord d = some 0x0000006F#32 → run step k s = .steps s

/-- For every state and operands ADDI, ADD and SUB answer a next state; rd holds the exact signed sum or difference modulo 2^64, which is the exact unsigned one modulo 2^64 too; the sources are read before rd is written; no other register, no byte of memory changes; pc advances by 4. That overflow wraps is the spec's general knowledge (log entry 16). -/
def Obligations.AddAndSubtractWrapModulo64Bits : Prop :=
  ∀ (s : State) (rd rs1 rs2 : RegIdx) (imm : BitVec 12),
    Completes exec (.addi rd rs1 imm) s (fun t =>
      RegStep s t rd (.ofInt 64 ((s.reg rs1).toInt + imm.toInt)) ∧
      RegStep s t rd (.ofInt 64 ((s.reg rs1).toNat + (imm.signExtend 64).toNat))) ∧
    Completes exec (.add rd rs1 rs2) s (fun t =>
      RegStep s t rd (.ofInt 64 ((s.reg rs1).toInt + (s.reg rs2).toInt)) ∧
      RegStep s t rd (.ofInt 64 ((s.reg rs1).toNat + (s.reg rs2).toNat))) ∧
    Completes exec (.sub rd rs1 rs2) s (fun t =>
      RegStep s t rd (.ofInt 64 ((s.reg rs1).toInt - (s.reg rs2).toInt)) ∧
      RegStep s t rd (.ofInt 64 ((s.reg rs1).toNat - (s.reg rs2).toNat)))

/-- For every state and operands the four instructions answer a next state whose rd is 1 or 0 by the signed (SLT, SLTI) or unsigned (SLTU, SLTIU, the immediate sign-extended first) comparison; nothing else but pc changes; and when exactly one of the operands has its top bit set, SLT and SLTU write different values to any rd but x0. -/
def Obligations.SetLessThanComparesSignedOrUnsigned : Prop :=
  ∀ (s : State) (rd rs1 rs2 : RegIdx) (imm : BitVec 12),
    Completes exec (.slti rd rs1 imm) s (fun t => RegStep s t rd (boolWord ((s.reg rs1).toInt < imm.toInt))) ∧
    Completes exec (.sltiu rd rs1 imm) s (fun t =>
      RegStep s t rd (boolWord (((s.reg rs1).toNat : Int) < imm.toInt % 2 ^ 64))) ∧
    Completes exec (.slt rd rs1 rs2) s (fun t => RegStep s t rd (boolWord ((s.reg rs1).toInt < (s.reg rs2).toInt))) ∧
    Completes exec (.sltu rd rs1 rs2) s (fun t => RegStep s t rd (boolWord ((s.reg rs1).toNat < (s.reg rs2).toNat))) ∧
    ∀ t u, rd ≠ 0#5 → (s.reg rs1).msb ≠ (s.reg rs2).msb → exec (.slt rd rs1 rs2) s = .next t →
      exec (.sltu rd rs1 rs2) s = .next u → t.reg rd ≠ u.reg rd

/-- For every state and operands the six instructions answer a next state whose rd has, in each bit k of 64, the exclusive or, or, or and of bit k of the operands; bit k of an immediate operand is imm[k] below 12 and imm[11] above; nothing else but pc changes. What the mnemonics compute is the spec's general knowledge (log entry 16). -/
def Obligations.LogicIsBitwiseOnSignExtendedOperands : Prop :=
  ∀ (s : State) (rd rs1 rs2 : RegIdx) (imm : BitVec 12),
    let bit (k : Nat) : Bool := if k < 12 then imm.getLsbD k else imm.getLsbD 11
    let a := s.reg rs1
    let b := s.reg rs2
    Completes exec (.xori rd rs1 imm) s (fun t => ∃ v, (∀ k, k < 64 → v.getLsbD k = (a.getLsbD k ^^ bit k)) ∧ RegStep s t rd v) ∧
    Completes exec (.ori rd rs1 imm) s (fun t => ∃ v, (∀ k, k < 64 → v.getLsbD k = (a.getLsbD k || bit k)) ∧ RegStep s t rd v) ∧
    Completes exec (.andi rd rs1 imm) s (fun t => ∃ v, (∀ k, k < 64 → v.getLsbD k = (a.getLsbD k && bit k)) ∧ RegStep s t rd v) ∧
    Completes exec (.xor rd rs1 rs2) s (fun t => ∃ v, (∀ k, k < 64 → v.getLsbD k = (a.getLsbD k ^^ b.getLsbD k)) ∧ RegStep s t rd v) ∧
    Completes exec (.or rd rs1 rs2) s (fun t => ∃ v, (∀ k, k < 64 → v.getLsbD k = (a.getLsbD k || b.getLsbD k)) ∧ RegStep s t rd v) ∧
    Completes exec (.and rd rs1 rs2) s (fun t => ∃ v, (∀ k, k < 64 → v.getLsbD k = (a.getLsbD k && b.getLsbD k)) ∧ RegStep s t rd v)

/-- For every state and operands SLLI (n = shamt6) and SLL (n = x[rs2] mod 64) answer a next state whose rd is x[rs1] * 2^n modulo 2^64; nothing else but pc changes. -/
def Obligations.ShiftLeftMultipliesByAPowerOfTwo : Prop :=
  ∀ (s : State) (rd rs1 rs2 : RegIdx) (shamt : BitVec 6),
    Completes exec (.slli rd rs1 shamt) s (fun t => RegStep s t rd (.ofNat 64 ((s.reg rs1).toNat * 2 ^ shamt.toNat))) ∧
    Completes exec (.sll rd rs1 rs2) s (fun t =>
      RegStep s t rd (.ofNat 64 ((s.reg rs1).toNat * 2 ^ ((s.reg rs2).toNat % 64))))

/-- For every state and operands SRLI, SRL write floor(unsigned x[rs1] / 2^n) and SRAI, SRA write floor(signed x[rs1] / 2^n), n = shamt6 or x[rs2] mod 64; all four answer a next state and nothing else but pc changes. -/
def Obligations.ShiftRightDividesByAPowerOfTwo : Prop :=
  ∀ (s : State) (rd rs1 rs2 : RegIdx) (shamt : BitVec 6),
    Completes exec (.srli rd rs1 shamt) s (fun t => RegStep s t rd (.ofNat 64 ((s.reg rs1).toNat / 2 ^ shamt.toNat))) ∧
    Completes exec (.srl rd rs1 rs2) s (fun t =>
      RegStep s t rd (.ofNat 64 ((s.reg rs1).toNat / 2 ^ ((s.reg rs2).toNat % 64)))) ∧
    Completes exec (.srai rd rs1 shamt) s (fun t =>
      RegStep s t rd (.ofInt 64 (Int.fdiv (s.reg rs1).toInt (2 ^ shamt.toNat)))) ∧
    Completes exec (.sra rd rs1 rs2) s (fun t =>
      RegStep s t rd (.ofInt 64 (Int.fdiv (s.reg rs1).toInt (2 ^ ((s.reg rs2).toNat % 64)))))

/-- In two states that agree on x[rs1] and whose x[rs2] are equal modulo 64, SLL, SRL and SRA write the same value to rd: only the low 6 bits of x[rs2] count. Immediate amounts are 6-bit fields, so they are below 64 by their type (R122). -/
def Obligations.RegisterShiftAmountsAreModulo64 : Prop :=
  ∀ (s s' t t' : State) (rd rs1 rs2 : RegIdx), s.reg rs1 = s'.reg rs1 →
    (s.reg rs2).toNat % 64 = (s'.reg rs2).toNat % 64 →
    (exec (.sll rd rs1 rs2) s = .next t → exec (.sll rd rs1 rs2) s' = .next t' → t.reg rd = t'.reg rd) ∧
    (exec (.srl rd rs1 rs2) s = .next t → exec (.srl rd rs1 rs2) s' = .next t' → t.reg rd = t'.reg rd) ∧
    (exec (.sra rd rs1 rs2) s = .next t → exec (.sra rd rs1 rs2) s' = .next t' → t.reg rd = t'.reg rd)

/-- For every state and operands ADDIW, ADDW and SUBW answer a next state whose rd, read as signed, is the exact sum or difference reduced to the signed 32-bit range; no overflow is detected; nothing else but pc changes. That the nine word instructions are present is the spec's decision D8 (log entry 6). -/
def Obligations.WordAddAndSubtractWrapModulo32Bits : Prop :=
  ∀ (s : State) (rd rs1 rs2 : RegIdx) (imm : BitVec 12),
    Completes exec (.addiw rd rs1 imm) s (fun t =>
      RegStep s t rd (.ofInt 64 (Int.bmod ((s.reg rs1).toInt + imm.toInt) (2 ^ 32)))) ∧
    Completes exec (.addw rd rs1 rs2) s (fun t =>
      RegStep s t rd (.ofInt 64 (Int.bmod ((s.reg rs1).toInt + (s.reg rs2).toInt) (2 ^ 32)))) ∧
    Completes exec (.subw rd rs1 rs2) s (fun t =>
      RegStep s t rd (.ofInt 64 (Int.bmod ((s.reg rs1).toInt - (s.reg rs2).toInt) (2 ^ 32))))

/-- For every state and operands SLLIW (n = shamt5) and SLLW (n = x[rs2] mod 32) answer a next state whose rd, read as signed, is x[rs1] * 2^n reduced to the signed 32-bit range; nothing else but pc changes. The 5-bit amount is the spec's decision D14 (log entry 8). -/
def Obligations.WordShiftLeftWrapsModulo32Bits : Prop :=
  ∀ (s : State) (rd rs1 rs2 : RegIdx) (shamt : BitVec 5),
    Completes exec (.slliw rd rs1 shamt) s (fun t =>
      RegStep s t rd (.ofInt 64 (Int.bmod ((s.reg rs1).toNat * 2 ^ shamt.toNat) (2 ^ 32)))) ∧
    Completes exec (.sllw rd rs1 rs2) s (fun t =>
      RegStep s t rd (.ofInt 64 (Int.bmod ((s.reg rs1).toNat * 2 ^ ((s.reg rs2).toNat % 32)) (2 ^ 32))))

/-- For every state and operands SRLIW and SRLW write floor(low word / 2^n) and SRAIW and SRAW write floor(signed low word / 2^n), each sign-extended from bit 31, n = shamt5 or x[rs2] mod 32; all answer a next state; nothing else but pc changes. The 5-bit amount is the spec's decision D14 (log entry 8). -/
def Obligations.WordShiftRightActsOnTheLowWord : Prop :=
  ∀ (s : State) (rd rs1 rs2 : RegIdx) (shamt : BitVec 5),
    let low : Nat := (s.reg rs1).toNat % 2 ^ 32
    let n : Nat := (s.reg rs2).toNat % 32
    Completes exec (.srliw rd rs1 shamt) s (fun t => RegStep s t rd (.ofInt 64 (Int.bmod (low / 2 ^ shamt.toNat : Nat) (2 ^ 32)))) ∧
    Completes exec (.srlw rd rs1 rs2) s (fun t => RegStep s t rd (.ofInt 64 (Int.bmod (low / 2 ^ n : Nat) (2 ^ 32)))) ∧
    Completes exec (.sraiw rd rs1 shamt) s (fun t =>
      RegStep s t rd (.ofInt 64 (Int.fdiv (Int.bmod low (2 ^ 32)) (2 ^ shamt.toNat)))) ∧
    Completes exec (.sraw rd rs1 rs2) s (fun t => RegStep s t rd (.ofInt 64 (Int.fdiv (Int.bmod low (2 ^ 32)) (2 ^ n))))

/-- For each of the nine word instructions: in two states whose registers agree in their low 32 bits, rd gets the same value, and bits 63 to 32 of that value are copies of its bit 31 (R139). -/
def Obligations.WordResultsIgnoreTheHighHalves : Prop :=
  ∀ (i : Instr) (s s' t t' : State) (rd : RegIdx), isWordOp i = true → destOf i = some rd →
    (∀ r, (s.reg r).toNat % 2 ^ 32 = (s'.reg r).toNat % 2 ^ 32) → exec i s = .next t → exec i s' = .next t' →
    t.reg rd = t'.reg rd ∧ ∀ k, 32 ≤ k → k < 64 → (t.reg rd).getLsbD k = (t.reg rd).getLsbD 31

/-- For every state and operands LUI writes the signed 20-bit field times 4096 and AUIPC writes its own pc plus that, modulo 2^64; the low 12 bits of LUI's result are zero; neither reads a register or traps; nothing else but pc (by 4) changes. -/
def Obligations.UpperImmediatesAreSignExtendedFromBit31 : Prop :=
  ∀ (s : State) (rd : RegIdx) (imm : BitVec 20),
    Completes exec (.lui rd imm) s (fun t =>
      RegStep s t rd (.ofInt 64 (imm.toInt * 4096)) ∧ (t.reg rd).toNat % 4096 = 0) ∧
    Completes exec (.auipc rd imm) s (fun t => RegStep s t rd (offsetBy s.pc (imm.toInt * 4096)))

/-- For every state and operands JAL answers a next state: rd holds pc + 4 (nothing for x0), pc is its own pc plus the signed immediate modulo 2^64 whatever its alignment or range, memory is unchanged. -/
def Obligations.JalLinksAndJumpsRelativeToItsOwnPc : Prop :=
  ∀ (s : State) (rd : RegIdx) (imm : BitVec 21),
    Completes exec (.jal rd imm) s (fun t =>
      WritesReg s t rd (offsetBy s.pc 4) ∧ SameMemory s t ∧ t.pc = offsetBy s.pc imm.toInt)

/-- For every state and operands, rd = rs1 among them, JALR answers a next state: rd holds pc + 4, pc is (x[rs1] + imm) modulo 2^64, x[rs1] read before rd is written, with bit 0 forced to 0 and every other bit kept; memory is unchanged. -/
def Obligations.JalrLinksAndJumpsThroughTheOldRegister : Prop :=
  ∀ (s : State) (rd rs1 : RegIdx) (imm : BitVec 12),
    Completes exec (.jalr rd rs1 imm) s (fun t =>
      WritesReg s t rd (offsetBy s.pc 4) ∧ SameMemory s t ∧
      (t.pc.toNat : Int) = ((s.reg rs1).toInt + imm.toInt) % 2 ^ 64 / 2 * 2)

/-- For every state and operands BEQ, BNE, BLT, BGE, BLTU, BGEU answer a next state in which pc is the branch's own pc plus the signed immediate if x[rs1] =, !=, signed <, signed >=, unsigned <, unsigned >= x[rs2], and pc + 4 otherwise; no register and no byte of memory changes. Which mnemonic means which comparison is the spec's general knowledge (log entry 16). -/
def Obligations.BranchesCompareAsTheirMnemonicsSay : Prop :=
  ∀ (s : State) (rs1 rs2 : RegIdx) (imm : BitVec 13),
    Completes exec (.beq rs1 rs2 imm) s (fun t => BranchStep s t imm (s.reg rs1 = s.reg rs2)) ∧
    Completes exec (.bne rs1 rs2 imm) s (fun t => BranchStep s t imm (s.reg rs1 ≠ s.reg rs2)) ∧
    Completes exec (.blt rs1 rs2 imm) s (fun t => BranchStep s t imm ((s.reg rs1).toInt < (s.reg rs2).toInt)) ∧
    Completes exec (.bge rs1 rs2 imm) s (fun t => BranchStep s t imm ((s.reg rs1).toInt ≥ (s.reg rs2).toInt)) ∧
    Completes exec (.bltu rs1 rs2 imm) s (fun t => BranchStep s t imm ((s.reg rs1).toNat < (s.reg rs2).toNat)) ∧
    Completes exec (.bgeu rs1 rs2 imm) s (fun t => BranchStep s t imm ((s.reg rs1).toNat ≥ (s.reg rs2).toNat))

/-- Every word with opcode 0001111 and funct3 000, whatever its other bits, runs as a no-op when fetched: the step answers a next state in which every register and byte of memory is as before and pc is pc + 4; and exec of FENCE does so for all its fields in every state. That its other fields are ignored is the spec's own decision D15 (log entry 9). Said of step and exec, and of stepAt and execAt at every choice of DRAM_BASE and DRAM_SIZE. -/
def Obligations.FenceOnlyAdvancesPc : Prop :=
  (∀ (s : State) (fm pred succ : BitVec 4) (rs1 rd : RegIdx),
    Completes exec (.fence fm pred succ rs1 rd) s (fun t => SameRegs s t ∧ SameMemory s t ∧ t.pc = offsetBy s.pc 4)) ∧
  AtEveryDram fun d step _ =>
    ∀ (s : State) (w : InstWord), s.fetchedWord d = some w → slice w 6 0 = 0x0F → slice w 14 12 = 0 →
      ∃ t, step s = .next t ∧ SameRegs s t ∧ SameMemory s t ∧ t.pc = offsetBy s.pc 4

/-- For every state, JAL, JALR and each taken branch answer a next state whose pc is the target, with no condition on the target, and the link register written; when the target is out of range for a 4-byte fetch, the next step is the MemoryFault with pc and addr equal to the target; when it is in range, a multiple of 4 or not, the next step fetches and decodes the 4 bytes there. The clauses on the next step are the spec's own derivation. Said of step and exec, and of stepAt and execAt at every choice of DRAM_BASE and DRAM_SIZE. -/
def Obligations.NoJumpTargetIsChecked : Prop :=
  AtEveryDram fun d step exec =>
    ∀ (i : Instr) (s : State) (a : Word), JumpsTo i s a →
      ∃ t, exec i s = .next t ∧ t.pc = a ∧ SameMemory s t ∧
        (∀ rd, destOf i = some rd → WritesReg s t rd (offsetBy s.pc 4)) ∧ (destOf i = none → SameRegs s t) ∧
        (inRange d a .word = false → step t = .fault (.memoryFault a none a .word)) ∧
        (inRange d a .word = true → ∃ w, w.toNat = leValue t.mem a.toNat 4 ∧
          (∀ j, decode w = .ok j → step t = exec j t) ∧ (∀ e, decode w = .error e → step t = .fault (.illegalInstruction w a)))

/-- An access of n bytes at addr is in range if and only if DRAM_BASE <= addr and addr + n <= DRAM_BASE + DRAM_SIZE in unbounded integers; for legal parameters an access that would run past 2^64 - 1 is out of range, and an access is out of range as a whole if any of its bytes is; fetch, load and store make the same check. That the sum is not reduced is the spec's own decision D6 (log entry 10). -/
def Obligations.RangeCheckIsInUnboundedIntegers : Prop :=
  ∀ (d : Dram) (addr : Word) (n : Width),
    (inRange d addr n = true ↔
      d.base.toNat ≤ addr.toNat ∧ addr.toNat + n.bytes ≤ d.base.toNat + d.size) ∧
    (d.Ok → 2 ^ 64 < addr.toNat + n.bytes → inRange d addr n = false) ∧
    (d.Ok → (inRange d addr n = true ↔ addr.toNat + n.bytes ≤ 2 ^ 64 ∧
      ∀ k, k < n.bytes → inRange d (addr + .ofNat 64 k) .byte = true)) ∧
    (∀ m : Memory, m.read d addr n = none ↔ inRange d addr n = false) ∧
    (∀ (m : Memory) (v : Word), m.write d addr n v = none ↔ inRange d addr n = false) ∧
    ∀ s : State, s.fetchedWord d = none ↔ inRange d s.pc .word = false

/-- For every state and operands: when the access at x[rs1] + imm is in range, the load answers a next state; rd holds the little-endian value of its 1, 2, 4 or 8 bytes, sign-extended for LB, LH, LW, zero-extended for LBU, LHU, LWU, whole for LD; the base is the old x[rs1]; nothing else but pc changes; rd = x0 drops only the write. Said of step and exec, and of stepAt and execAt at every choice of DRAM_BASE and DRAM_SIZE. -/
def Obligations.LoadsReadLittleEndianAndExtend : Prop :=
  AtEveryDram fun d _ exec =>
    ∀ (s : State) (rd rs1 : RegIdx) (imm : BitVec 12),
      let addr := offsetBy (s.reg rs1) imm.toInt
      let bytes (n : Width) : Nat := leValue s.mem addr.toNat n.bytes
      (inRange d addr .byte = true →
        LoadStep exec (.lb rd rs1 imm) s rd (fun v => v.toInt = signedOf 8 (bytes .byte)) ∧
        LoadStep exec (.lbu rd rs1 imm) s rd (fun v => v.toNat = bytes .byte)) ∧
      (inRange d addr .half = true →
        LoadStep exec (.lh rd rs1 imm) s rd (fun v => v.toInt = signedOf 16 (bytes .half)) ∧
        LoadStep exec (.lhu rd rs1 imm) s rd (fun v => v.toNat = bytes .half)) ∧
      (inRange d addr .word = true →
        LoadStep exec (.lw rd rs1 imm) s rd (fun v => v.toInt = signedOf 32 (bytes .word)) ∧
        LoadStep exec (.lwu rd rs1 imm) s rd (fun v => v.toNat = bytes .word)) ∧
      (inRange d addr .double = true →
        LoadStep exec (.ld rd rs1 imm) s rd (fun v => v.toNat = bytes .double))

/-- For every state and operands: when the access at x[rs1] + imm is in range, SB, SH, SW, SD answer a next state in which byte k of the addressed 1, 2, 4, 8 bytes is byte k of x[rs2] (lowest first), every other byte of memory and every register reads as before, and pc is pc + 4. Said of step and exec, and of stepAt and execAt at every choice of DRAM_BASE and DRAM_SIZE. -/
def Obligations.StoresWriteTheLowBytesOnly : Prop :=
  AtEveryDram fun d _ exec =>
    ∀ (s : State) (rs1 rs2 : RegIdx) (imm : BitVec 12),
      let addr := offsetBy (s.reg rs1) imm.toInt
      (inRange d addr .byte = true → StoreStep exec (.sb rs1 rs2 imm) s addr .byte (s.reg rs2)) ∧
      (inRange d addr .half = true → StoreStep exec (.sh rs1 rs2 imm) s addr .half (s.reg rs2)) ∧
      (inRange d addr .word = true → StoreStep exec (.sw rs1 rs2 imm) s addr .word (s.reg rs2)) ∧
      (inRange d addr .double = true → StoreStep exec (.sd rs1 rs2 imm) s addr .double (s.reg rs2))

/-- For each load and store and every state: the data access is at x[rs1] + imm with the width of the instruction, and when it is out of range exec's result is the MemoryFault record with the instruction's pc, the word fetched there, that address and width; it is never a next state, so no register, byte or pc changes; and no instruction's exec traps otherwise than by such a record. The fields of the record are the spec's own decision D16 (log entry 12). Said of step and exec, and of stepAt and execAt at every choice of DRAM_BASE and DRAM_SIZE. -/
def Obligations.DataAccessOutOfRangeFaultsAndCommitsNothing : Prop :=
  AtEveryDram fun d _ exec =>
    ∀ (s : State) (r rs1 : RegIdx) (imm : BitVec 12),
      let addr := offsetBy (s.reg rs1) imm.toInt
      let fault (n : Width) : Host.Outcome State Fault Refusal := .fault (.memoryFault s.pc (s.fetchedWord d) addr n)
      (inRange d addr .byte = false → exec (.lb r rs1 imm) s = fault .byte ∧ exec (.lbu r rs1 imm) s = fault .byte ∧
        exec (.sb rs1 r imm) s = fault .byte) ∧
      (inRange d addr .half = false → exec (.lh r rs1 imm) s = fault .half ∧ exec (.lhu r rs1 imm) s = fault .half ∧
        exec (.sh rs1 r imm) s = fault .half) ∧
      (inRange d addr .word = false → exec (.lw r rs1 imm) s = fault .word ∧ exec (.lwu r rs1 imm) s = fault .word ∧
        exec (.sw rs1 r imm) s = fault .word) ∧
      (inRange d addr .double = false → exec (.ld r rs1 imm) s = fault .double ∧ exec (.sd rs1 r imm) s = fault .double) ∧
      ∀ (i : Instr) (f : Fault), exec i s = .fault f →
        ∃ a n, dataAccess i s = some (a, n) ∧ inRange d a n = false ∧ f = .memoryFault s.pc (s.fetchedWord d) a n

/-- For legal DRAM_BASE and DRAM_SIZE and every image, after MemWrite(a, 8, v): MemRead(a + k, 1) gives byte k of v for k in 0..7, MemRead(a + 2k, 2) half-word k for k in 0..3, MemRead(a + 4k, 4) word k for k in 0..1 (R48). -/
def Obligations.MixedWidthAccessesSeeTheStoredBytes : Prop :=
  ∀ (d : Dram) (m m' : Memory) (a v : Word), d.Ok → m.write d a .double v = some m' →
    (∀ k, k < 8 → ∃ r, m'.read d (a + .ofNat 64 k) .byte = some r ∧ r.toNat = v.toNat / 2 ^ (8 * k) % 2 ^ 8) ∧
    (∀ k, k < 4 → ∃ r, m'.read d (a + .ofNat 64 (2 * k)) .half = some r ∧ r.toNat = v.toNat / 2 ^ (16 * k) % 2 ^ 16) ∧
    (∀ k, k < 2 → ∃ r, m'.read d (a + .ofNat 64 (4 * k)) .word = some r ∧ r.toNat = v.toNat / 2 ^ (32 * k) % 2 ^ 32)

/-- For legal DRAM_BASE and DRAM_SIZE and every image, at every address, aligned or not: a read of n bytes succeeds if and only if it is in range, and then its value is made of the n single-byte reads at consecutive addresses, lowest first; no alignment is ever a cause of failure (R49). -/
def Obligations.UnalignedReadsAreTheirSingleByteReads : Prop :=
  ∀ (d : Dram) (m : Memory) (a : Word) (n : Width), d.Ok →
    (m.read d a n ≠ none ↔ inRange d a n = true) ∧
    ∀ v, m.read d a n = some v → v.toNat < 256 ^ n.bytes ∧
      ∀ k, k < n.bytes → ∃ r, m.read d (a + .ofNat 64 k) .byte = some r ∧ r.toNat = v.toNat / 256 ^ k % 256

/-- For every image, DRAM_BASE and DRAM_SIZE: after a write of n bytes at a, the read of n bytes at a gives the low n bytes of the value, and a read of any width that shares no byte with it gives what it gave before (R52, R55). -/
def Obligations.ReadsReturnTheLastValueWritten : Prop :=
  ∀ (d : Dram) (m m' : Memory) (a : Word) (n : Width) (v : Word), m.write d a n v = some m' →
    (∃ r, m'.read d a n = some r ∧ r.toNat = v.toNat % 256 ^ n.bytes) ∧
    ∀ (b : Word) (k : Width), b.toNat + k.bytes ≤ a.toNat ∨ a.toNat + n.bytes ≤ b.toNat → m'.read d b k = m.read d b k

/-- For every state in which SW completes with its address equal to the address of the next instruction (pc + 4), the word the next step fetches is the low word of x[rs2] (R58). Said of step and exec, and of stepAt and execAt at every choice of DRAM_BASE and DRAM_SIZE. -/
def Obligations.AStoreIsSeenByTheNextFetch : Prop :=
  AtEveryDram fun d _ exec =>
    ∀ (s t : State) (rs1 rs2 : RegIdx) (imm : BitVec 12), exec (.sw rs1 rs2 imm) s = .next t →
      storeAddress rs1 imm s = offsetBy s.pc 4 →
      ∃ w, t.fetchedWord d = some w ∧ w.toNat = (s.reg rs2).toNat % 2 ^ 32

/-- For every two images in canonical form for the same DRAM, if every address reads the same byte then the images are equal. The list form is the model's own (log entry 14). -/
def Obligations.CanonicalMemoriesWithEqualBytesAreEqual : Prop :=
  ∀ (d : Dram) (m m' : Memory), m.wfIn d = true → m'.wfIn d = true → (∀ a, m.byteAt a = m'.byteAt a) → m = m'

/-- exec and step are execAt and stepAt of the chosen DRAM_BASE and DRAM_SIZE; an instruction that makes no data access does the same at every choice of the two; and a step does the same at two choices whose range checks agree on its fetch and on the data access of the instruction it fetches. The chosen values are the model's (log entry 1), not the spec's. The last clause is the model's own choice, not a rule of the spec: it holds because memory is keyed by absolute address (log entry 14), where the adapter of R41 and R44 subtracts DRAM_BASE, so that the base also picks the byte of the buffer. -/
def Obligations.ParametersReachAStepOnlyByRangeChecks : Prop :=
  exec = execAt Config.dram ∧ step = stepAt Config.dram ∧
  (∀ (d : Dram) (i : Instr) (s : State), dataAccess i s = none → execAt d i s = exec i s) ∧
  ∀ (d d' : Dram) (s : State), inRange d s.pc .word = inRange d' s.pc .word →
    (∀ w i a n, s.fetchedWord d = some w → decode w = .ok i → dataAccess i s = some (a, n) → inRange d a n = inRange d' a n) →
    stepAt d s = stepAt d' s
end

