-- ==== Sys2Proof/Laws/Decode.lean ====
section
/-! SUPPORT. The fields of an encoded word are the fields it was encoded from, format by format (R71, R72). -/

namespace Sys2Proof

/-- The bits of a placed field. -/
theorem getLsbD_place {n k : Nat} (lo : Nat) (f : BitVec n) (j : Nat) :
    (place lo f : BitVec k).getLsbD j = (decide (j < k) && !decide (j < lo) && f.getLsbD (j - lo)) := by
  unfold place
  rw [BitVec.getLsbD_shiftLeft, BitVec.getLsbD_setWidth]
  by_cases h : j < k
  · have h' : j - lo < k := by omega
    simp [h, h']
  · simp [h]

theorem getElem_place {n k : Nat} (lo : Nat) (f : BitVec n) (j : Nat) (h : j < k) :
    (place lo f : BitVec k)[j] = (!decide (j < lo) && f.getLsbD (j - lo)) := by
  rw [← BitVec.getLsbD_eq_getElem, getLsbD_place]; simp [h]

section Fields

variable (f7 : BitVec 7) (rs2 rs1 rd : RegIdx) (f3 : BitVec 3) (op : BitVec 7)
variable (imm12 : BitVec 12) (imm13 : BitVec 13) (imm20 : BitVec 20) (imm21 : BitVec 21)

@[simp] theorem opcodeOf_encodeR : opcodeOf (encodeR f7 rs2 rs1 f3 rd op) = op := by
  simp only [opcodeOf, encodeR]; ext i hi; simp [getLsbD_place]; grind
@[simp] theorem funct3Of_encodeR : funct3Of (encodeR f7 rs2 rs1 f3 rd op) = f3 := by
  simp only [funct3Of, encodeR]; ext i hi; simp [getLsbD_place]; grind
@[simp] theorem rdOf_encodeR : rdOf (encodeR f7 rs2 rs1 f3 rd op) = rd := by
  simp only [rdOf, encodeR]; ext i hi; simp [getLsbD_place]; grind
@[simp] theorem rs1Of_encodeR : rs1Of (encodeR f7 rs2 rs1 f3 rd op) = rs1 := by
  simp only [rs1Of, encodeR]; ext i hi; simp [getLsbD_place]; grind
@[simp] theorem rs2Of_encodeR : rs2Of (encodeR f7 rs2 rs1 f3 rd op) = rs2 := by
  simp only [rs2Of, encodeR]; ext i hi; simp [getLsbD_place]; grind
@[simp] theorem opcodeOf_encodeI : opcodeOf (encodeI imm12 rs1 f3 rd op) = op := by
  simp only [opcodeOf, encodeI]; ext i hi; simp [getLsbD_place]; grind
@[simp] theorem funct3Of_encodeI : funct3Of (encodeI imm12 rs1 f3 rd op) = f3 := by
  simp only [funct3Of, encodeI]; ext i hi; simp [getLsbD_place]; grind
@[simp] theorem rdOf_encodeI : rdOf (encodeI imm12 rs1 f3 rd op) = rd := by
  simp only [rdOf, encodeI]; ext i hi; simp [getLsbD_place]; grind
@[simp] theorem rs1Of_encodeI : rs1Of (encodeI imm12 rs1 f3 rd op) = rs1 := by
  simp only [rs1Of, encodeI]; ext i hi; simp [getLsbD_place]; grind
@[simp] theorem opcodeOf_encodeS : opcodeOf (encodeS imm12 rs2 rs1 f3 op) = op := by
  simp only [opcodeOf, encodeS]; ext i hi; simp [getLsbD_place]; grind
@[simp] theorem funct3Of_encodeS : funct3Of (encodeS imm12 rs2 rs1 f3 op) = f3 := by
  simp only [funct3Of, encodeS]; ext i hi; simp [getLsbD_place]; grind
@[simp] theorem rs1Of_encodeS : rs1Of (encodeS imm12 rs2 rs1 f3 op) = rs1 := by
  simp only [rs1Of, encodeS]; ext i hi; simp [getLsbD_place]; grind
@[simp] theorem rs2Of_encodeS : rs2Of (encodeS imm12 rs2 rs1 f3 op) = rs2 := by
  simp only [rs2Of, encodeS]; ext i hi; simp [getLsbD_place]; grind
@[simp] theorem opcodeOf_encodeB : opcodeOf (encodeB imm13 rs2 rs1 f3 op) = op := by
  simp only [opcodeOf, encodeB]; ext i hi; simp [getLsbD_place]; grind
@[simp] theorem funct3Of_encodeB : funct3Of (encodeB imm13 rs2 rs1 f3 op) = f3 := by
  simp only [funct3Of, encodeB]; ext i hi; simp [getLsbD_place]; grind
@[simp] theorem rs1Of_encodeB : rs1Of (encodeB imm13 rs2 rs1 f3 op) = rs1 := by
  simp only [rs1Of, encodeB]; ext i hi; simp [getLsbD_place]; grind
@[simp] theorem rs2Of_encodeB : rs2Of (encodeB imm13 rs2 rs1 f3 op) = rs2 := by
  simp only [rs2Of, encodeB]; ext i hi; simp [getLsbD_place]; grind
@[simp] theorem opcodeOf_encodeU : opcodeOf (encodeU imm20 rd op) = op := by
  simp only [opcodeOf, encodeU]; ext i hi; simp [getLsbD_place]; grind
@[simp] theorem rdOf_encodeU : rdOf (encodeU imm20 rd op) = rd := by
  simp only [rdOf, encodeU]; ext i hi; simp [getLsbD_place]; grind
@[simp] theorem opcodeOf_encodeJ : opcodeOf (encodeJ imm21 rd op) = op := by
  simp only [opcodeOf, encodeJ]; ext i hi; simp [getLsbD_place]; grind
@[simp] theorem rdOf_encodeJ : rdOf (encodeJ imm21 rd op) = rd := by
  simp only [rdOf, encodeJ]; ext i hi; simp [getLsbD_place]; grind
@[simp] theorem funct7Of_encodeR : funct7Of (encodeR f7 rs2 rs1 f3 rd op) = f7 := by
  simp only [funct7Of, encodeR]; ext i hi; simp [getLsbD_place]; grind
@[simp] theorem immIOf_encodeI : immIOf (encodeI imm12 rs1 f3 rd op) = imm12 := by
  simp only [immIOf, encodeI]; ext i hi; simp [getLsbD_place]; grind
@[simp] theorem immSOf_encodeS : immSOf (encodeS imm12 rs2 rs1 f3 op) = imm12 := by
  simp only [immSOf, encodeS]; ext i hi; simp [getLsbD_place, getElem_place]; grind
@[simp] theorem immUOf_encodeU : immUOf (encodeU imm20 rd op) = imm20 := by
  simp only [immUOf, encodeU]; ext i hi; simp [getLsbD_place]; grind

/-- Format B drops only bit 0 of its immediate, which a well-formed instruction has zero (R76). -/
theorem immBOf_encodeB (h : imm13.getLsbD 0 = false) : immBOf (encodeB imm13 rs2 rs1 f3 op) = imm13 := by
  simp only [immBOf, encodeB]; ext i hi; simp [getLsbD_place, getElem_place]
  interval_cases i <;> simp_all

/-- Format J drops only bit 0 of its immediate, which a well-formed instruction has zero (R78). -/
theorem immJOf_encodeJ (h : imm21.getLsbD 0 = false) : immJOf (encodeJ imm21 rd op) = imm21 := by
  simp only [immJOf, encodeJ]; ext i hi; simp [getLsbD_place, getElem_place]
  interval_cases i <;> simp_all

/-- The immediate read from any word has bit 0 zero (R76). -/
theorem immBOf_even (w : InstWord) : (immBOf w).getLsbD 0 = false := by simp [immBOf, getElem_place]
/-- The immediate read from any word has bit 0 zero (R78). -/
theorem immJOf_even (w : InstWord) : (immJOf w).getLsbD 0 = false := by simp [immJOf, getElem_place]

end Fields

/-- The four bytes of a word, put together again, are the word (R46). -/
theorem wordOfBytes_bytes (w : InstWord) :
    wordOfBytes (w.extractLsb' 0 8) (w.extractLsb' 8 8) (w.extractLsb' 16 8) (w.extractLsb' 24 8) = w := by
  simp only [wordOfBytes]; ext i hi; simp [getElem_place]; grind

/-- Decoding the stored bytes of a word is decoding the word. -/
theorem decodeBytes_bytesOfWord (w : InstWord) (rest : List Byte) :
    decodeBytes (bytesOfWord w ++ rest) =
      match decode w with
      | .ok i => .ok (i, rest)
      | .error e => .error e := by
  cases h : decode w <;> simp [bytesOfWord, decodeBytes, wordOfBytes_bytes, h]

end Sys2Proof
end

