-- ==== Sys2Proof/Laws/Memory.lean ====
section
/-! SUPPORT. The laws of the memory image: read after write of a byte and of several bytes, what a write leaves alone, and
that every memory operation keeps the canonical form. -/

namespace Sys2Proof.Machine

/-! ### One cell -/

theorem lookupCell_eraseCell (a c : Nat) (l : List Host.Cell) :
    lookupCell a (eraseCell c l) = if a = c then Config.unlistedByte else lookupCell a l := by
  induction l with
  | nil => simp [eraseCell, lookupCell]
  | cons p rest ih =>
    obtain ⟨d, b⟩ := p
    by_cases hd : d = c
    · rw [eraseCell, if_pos hd, ih]
      by_cases ha : a = c
      · simp [ha]
      · have hda : d ≠ a := fun h => ha (h.symm.trans hd)
        simp [lookupCell, hda, ha]
    · by_cases ha : d = a
      · subst ha; simp [eraseCell, lookupCell, hd]
      · simp [eraseCell, lookupCell, hd, ha, ih]

theorem lookupCell_insertCell (a c : Nat) (b : Byte) (l : List Host.Cell)
    (hc : ∀ p ∈ l, p.1 ≠ c) :
    lookupCell a (insertCell c b l) = if a = c then b else lookupCell a l := by
  induction l with
  | nil => by_cases ha : a = c <;> simp [insertCell, lookupCell, ha, eq_comm]
  | cons p rest ih =>
    obtain ⟨d, e⟩ := p
    have hd : d ≠ c := hc (d, e) (by simp)
    have ih := ih fun q hq => hc q (by simp [hq])
    by_cases hlt : c < d
    · by_cases ha : a = c <;> simp [insertCell, lookupCell, hlt, ha, eq_comm]
    · by_cases ha : d = a
      · subst ha; simp [insertCell, lookupCell, hlt, hd]
      · simp [insertCell, lookupCell, hlt, ha, ih]

theorem ne_of_mem_eraseCell {c : Nat} {l : List Host.Cell} {p : Host.Cell} (h : p ∈ eraseCell c l) : p.1 ≠ c := by
  induction l with
  | nil => simp [eraseCell] at h
  | cons q rest ih =>
    obtain ⟨d, e⟩ := q
    by_cases hd : d = c
    · simp only [eraseCell, hd, if_true] at h; exact ih h
    · simp only [eraseCell, hd, if_false, List.mem_cons] at h
      rcases h with rfl | h
      · exact hd
      · exact ih h

/-! ### One byte (R52: a read returns the last value written; a write changes only the addressed bytes) -/

@[simp] theorem Memory.byteAt_setByte (m : Memory) (a c : Nat) (b : Byte) :
    (m.setByte c b).byteAt a = if a = c then b else m.byteAt a := by
  unfold Memory.byteAt Memory.setByte
  by_cases hb : b = Config.unlistedByte
  · simp [hb, lookupCell_eraseCell]
  · simp only [hb, if_false]
    rw [lookupCell_insertCell _ _ _ _ fun p hp => ne_of_mem_eraseCell hp, lookupCell_eraseCell]
    split <;> rfl

/-! ### Several bytes -/

/-- A write of `k` bytes sets exactly the bytes of `[a, a + k)` (R45). -/
theorem Memory.byteAt_writeBytes (m : Memory) (a : Nat) (v : Word) (k c : Nat) :
    (m.writeBytes a v k).byteAt c = if a ≤ c ∧ c < a + k then (v >>> (8 * (c - a))).setWidth 8 else m.byteAt c := by
  induction k generalizing m a v with
  | zero =>
    rw [if_neg (by omega)]; rfl
  | succ k ih =>
    rw [Memory.writeBytes, ih, Memory.byteAt_setByte]
    by_cases h0 : c = a
    · subst h0; simp
    · by_cases h1 : a + 1 ≤ c ∧ c < a + 1 + k
      · have h2 : a ≤ c ∧ c < a + (k + 1) := by omega
        have h3 : 8 * (c - a) = 8 + 8 * (c - (a + 1)) := by omega
        rw [if_pos h1, if_pos h2, h3, BitVec.shiftRight_add]
      · have h2 : ¬ (a ≤ c ∧ c < a + (k + 1)) := by omega
        rw [if_neg h1, if_neg h2, if_neg h0]

/-- Bit `j` of a read of `k` bytes is a bit of the byte that holds it (R44). -/
theorem Memory.getLsbD_readBytes (m : Memory) (a k j : Nat) (hk : k ≤ 8) :
    (m.readBytes a k).getLsbD j = (decide (j < 8 * k) && (m.byteAt (a + j / 8)).getLsbD (j % 8)) := by
  induction k generalizing a j with
  | zero => simp [Memory.readBytes]
  | succ k ih =>
    rw [Memory.readBytes, BitVec.getLsbD_or, BitVec.getLsbD_shiftLeft, BitVec.getLsbD_setWidth, ih _ _ (by omega)]
    by_cases hj : j < 8
    · have h64 : j < 64 := by omega
      have h8 : j < 8 * (k + 1) := by omega
      simp [hj, h64, h8, Nat.mod_eq_of_lt hj, Nat.div_eq_of_lt hj]
    · have hz : (m.byteAt a).getLsbD j = false := BitVec.getLsbD_of_ge _ _ (by omega)
      have hd : a + 1 + (j - 8) / 8 = a + j / 8 := by omega
      have hm : (j - 8) % 8 = j % 8 := by omega
      rw [hz, hd, hm]
      by_cases hl : j < 8 * (k + 1)
      · have h1 : j - 8 < 8 * k := by omega
        have h2 : j < 64 := by omega
        simp [hl, h1, h2, hj]
      · have h1 : ¬ j - 8 < 8 * k := by omega
        simp [hl, h1]

/-- A read depends only on the bytes it reads. -/
theorem Memory.readBytes_congr {m m' : Memory} {a a' : Nat} {k : Nat}
    (h : ∀ j, j < k → m.byteAt (a + j) = m'.byteAt (a' + j)) : m.readBytes a k = m'.readBytes a' k := by
  induction k generalizing a a' with
  | zero => rfl
  | succ k ih =>
    have h0 := h 0 (by omega)
    have hs : ∀ j, j < k → m.byteAt (a + 1 + j) = m'.byteAt (a' + 1 + j) := fun j hj => by
      have := h (j + 1) (by omega)
      rwa [show a + (j + 1) = a + 1 + j by omega, show a' + (j + 1) = a' + 1 + j by omega] at this
    simp only [Nat.add_zero] at h0
    rw [Memory.readBytes, Memory.readBytes, h0, ih hs]

/-! ### The bus operations (R40, R44, R45) -/

/-- All that `MemRead` can do. -/
theorem Memory.read_eq_some {m : Memory} {d : Dram} {addr : Word} {n : Width} {v : Word} :
    m.read d addr n = some v ↔ inRange d addr n = true ∧ v = m.readBytes addr.toNat n.bytes := by
  unfold Memory.read
  by_cases h : inRange d addr n = true <;> simp [h, eq_comm]

theorem Memory.read_eq_none {m : Memory} {d : Dram} {addr : Word} {n : Width} :
    m.read d addr n = none ↔ inRange d addr n = false := by
  unfold Memory.read
  by_cases h : inRange d addr n = true <;> simp [h]

/-- All that `MemWrite` can do. -/
theorem Memory.write_eq_some {m m' : Memory} {d : Dram} {addr : Word} {n : Width} {v : Word} :
    m.write d addr n v = some m' ↔ inRange d addr n = true ∧ m' = m.writeBytes addr.toNat v n.bytes := by
  unfold Memory.write
  by_cases h : inRange d addr n = true <;> simp [h, eq_comm]

theorem Memory.write_eq_none {m : Memory} {d : Dram} {addr : Word} {n : Width} {v : Word} :
    m.write d addr n v = none ↔ inRange d addr n = false := by
  unfold Memory.write
  by_cases h : inRange d addr n = true <;> simp [h]

/-- The range check in arithmetic (R42). -/
theorem inRange_iff (d : Dram) (addr : Word) (n : Width) :
    inRange d addr n = true ↔ d.base.toNat ≤ addr.toNat ∧ addr.toNat + n.bytes ≤ d.base.toNat + d.size := by
  simp [inRange]

theorem Width.bytes_le (n : Width) : n.bytes ≤ 8 := by cases n <;> decide
theorem Width.bytes_pos (n : Width) : 0 < n.bytes := by cases n <;> decide

/-! ### The canonical form -/

theorem canonicalCells_mono {lo lo' hi : Nat} {l : List Host.Cell} (h : lo' ≤ lo) (hl : canonicalCells lo hi l = true) :
    canonicalCells lo' hi l = true := by
  cases l with
  | nil => rfl
  | cons p rest =>
    obtain ⟨a, b⟩ := p
    simp only [canonicalCells, Bool.and_eq_true, decide_eq_true_eq] at hl ⊢
    exact ⟨⟨⟨by omega, hl.1.1.2⟩, hl.1.2⟩, hl.2⟩

theorem canonicalCells_erase {lo hi a : Nat} {l : List Host.Cell} (h : canonicalCells lo hi l = true) :
    canonicalCells lo hi (eraseCell a l) = true := by
  induction l generalizing lo with
  | nil => rfl
  | cons p rest ih =>
    obtain ⟨c, b⟩ := p
    simp only [canonicalCells, Bool.and_eq_true, decide_eq_true_eq] at h
    by_cases hc : c = a
    · simp only [eraseCell, hc, if_true]
      exact canonicalCells_mono (by omega) (ih h.2)
    · simp only [eraseCell, hc, if_false, canonicalCells, Bool.and_eq_true, decide_eq_true_eq]
      exact ⟨h.1, ih h.2⟩

theorem canonicalCells_insert {lo hi a : Nat} {b : Byte} {l : List Host.Cell} (h : canonicalCells lo hi l = true)
    (hlo : lo ≤ a) (hhi : a < hi) (hb : b ≠ Config.unlistedByte) (ha : ∀ p ∈ l, p.1 ≠ a) :
    canonicalCells lo hi (insertCell a b l) = true := by
  induction l generalizing lo with
  | nil => simp [insertCell, canonicalCells, hlo, hhi, hb]
  | cons p rest ih =>
    obtain ⟨c, d⟩ := p
    have hne : c ≠ a := ha (c, d) (by simp)
    simp only [canonicalCells, Bool.and_eq_true, decide_eq_true_eq] at h
    by_cases hlt : a < c
    · simp only [insertCell, hlt, if_true, canonicalCells, Bool.and_eq_true, decide_eq_true_eq]
      exact ⟨⟨⟨hlo, hhi⟩, hb⟩, ⟨⟨by omega, h.1.1.2⟩, h.1.2⟩, h.2⟩
    · simp only [insertCell, hlt, if_false, canonicalCells, Bool.and_eq_true, decide_eq_true_eq]
      exact ⟨h.1, ih h.2 (by omega) fun q hq => ha q (by simp [hq])⟩

/-- Setting a byte inside the region keeps the canonical form. -/
theorem Memory.setByte_wf {m : Memory} {d : Dram} {a : Nat} {b : Byte} (h : m.wfIn d = true) (hlo : d.base.toNat ≤ a)
    (hhi : a < d.base.toNat + d.size) : (m.setByte a b).wfIn d = true := by
  simp only [Memory.wfIn, Bool.and_eq_true] at h ⊢
  refine ⟨h.1, ?_⟩
  simp only [Memory.setByte]
  by_cases hb : b = Config.unlistedByte
  · rw [if_pos hb]; exact canonicalCells_erase h.2
  · rw [if_neg hb]
    exact canonicalCells_insert (canonicalCells_erase h.2) hlo hhi hb fun p hp => ne_of_mem_eraseCell hp

theorem Memory.writeBytes_wf {m : Memory} {d : Dram} {a : Nat} {v : Word} {k : Nat} (h : m.wfIn d = true)
    (hlo : d.base.toNat ≤ a) (hhi : a + k ≤ d.base.toNat + d.size) : (m.writeBytes a v k).wfIn d = true := by
  induction k generalizing m a v with
  | zero => exact h
  | succ k ih => exact ih (Memory.setByte_wf h hlo (by omega)) (by omega) (by omega)

/-- `MemWrite` keeps the canonical form. -/
theorem Memory.write_wf {m m' : Memory} {d : Dram} {addr : Word} {n : Width} {v : Word} (h : m.wfIn d = true)
    (hw : m.write d addr n v = some m') : m'.wfIn d = true := by
  obtain ⟨hr, rfl⟩ := Memory.write_eq_some.1 hw
  rw [inRange_iff] at hr
  exact Memory.writeBytes_wf h hr.1 hr.2

/-- A memory in canonical form for a DRAM says that the DRAM is as R11 says. -/
theorem Memory.dram_ok {m : Memory} {d : Dram} (h : m.wfIn d = true) : d.Ok := by
  simp only [Memory.wfIn, Bool.and_eq_true, decide_eq_true_eq] at h
  exact h.1

/-- The reset state's memory is in canonical form. -/
theorem State.reset_mem_wf : State.reset.mem.wf = true := by decide

end Sys2Proof.Machine
end

