-- ==== Sys2Proof/Laws/State.lean ====
section
/-! SUPPORT. One lemma per field per update of the state, so that no later proof unfolds a record update. -/

namespace Sys2Proof.Machine

variable (s : State) (i j : RegIdx) (v target : Word)

@[simp] theorem State.setPc_pc : (s.setPc target).pc = target := rfl
@[simp] theorem State.setPc_x : (s.setPc target).x = s.x := rfl
@[simp] theorem State.setPc_mem : (s.setPc target).mem = s.mem := rfl
@[simp] theorem State.setPc_reg : (s.setPc target).reg i = s.reg i := rfl

@[simp] theorem State.setReg_pc : (s.setReg i v).pc = s.pc := by
  unfold State.setReg; split <;> rfl
@[simp] theorem State.setReg_mem : (s.setReg i v).mem = s.mem := by
  unfold State.setReg; split <;> rfl

/-- Reads of index 0 always yield 0 (R22). -/
@[simp] theorem State.reg_zero : s.reg 0#5 = 0#64 := if_pos rfl
/-- Any write targeting index 0 is discarded (R22). -/
@[simp] theorem State.setReg_zero : s.setReg 0#5 v = s := if_pos rfl

/-- Read after write of the register file: the written register reads the value unless it is `x0`. -/
@[simp] theorem State.reg_setReg : (s.setReg i v).reg j = if j = i ∧ i ≠ 0#5 then v else s.reg j := by
  by_cases hi : i = 0#5
  · simp [hi]
  · by_cases hj : j = i
    · subst hj; simp [State.reg, State.setReg, hi]
    · have h : i.toNat ≠ j.toNat := fun h => hj (BitVec.eq_of_toNat_eq h.symm)
      simp [State.reg, State.setReg, hi, hj, h]

/-- Slot 0 of the register file is never written. -/
@[simp] theorem State.setReg_slot_zero : (s.setReg i v).x[0] = s.x[0] := by
  by_cases hi : i = 0#5
  · simp [hi]
  · have h : i.toNat ≠ 0 := fun h => hi (BitVec.eq_of_toNat_eq h)
    simp [State.setReg, hi, h]

@[simp] theorem State.setPc_setPc (t' : Word) : (s.setPc target).setPc t' = s.setPc t' := rfl

/-- A register read takes the slot of its index, unless it is `x0`. -/
theorem State.reg_of_ne_zero (h : i ≠ 0#5) : s.reg i = s.x[i.toNat]'i.isLt := if_neg h

end Sys2Proof.Machine
end

