-- ==== Sys2Proof/Laws/Ops.lean ====
section
/-! SUPPORT. One spec lemma per shared operation: all that it can answer, and when. -/

namespace Sys2Proof.Machine

variable {d : Dram} {s t : State} {rd rs1 rs2 : RegIdx} {imm : BitVec 12} {n : Width} {extend : Word → Word}

/-! ### Values read -/

theorem leValue_lt (m : Memory) (a k : Nat) : leValue m a k < 256 ^ k := by
  induction k generalizing a with
  | zero => simp [leValue]
  | succ k ih =>
    have h := ih (a + 1)
    have hb : (m.byteAt a).toNat < 256 := (m.byteAt a).isLt
    simp only [leValue, Nat.pow_succ]; omega

/-- A read of `k` bytes is their little-endian value (R44). -/
theorem Memory.toNat_readBytes (m : Memory) (a k : Nat) (hk : k ≤ 8) : (m.readBytes a k).toNat = leValue m a k := by
  induction k generalizing a with
  | zero => rfl
  | succ k ih =>
    have ih := ih (a + 1) (by omega)
    have hlt : (m.byteAt a).toNat < 256 := (m.byteAt a).isLt
    have hk' := leValue_lt m (a + 1) k
    have hpow : 256 ^ k * 256 ≤ 2 ^ 64 := by
      calc 256 ^ k * 256 = 256 ^ (k + 1) := (Nat.pow_succ ..).symm
        _ ≤ 256 ^ 8 := Nat.pow_le_pow_right (by omega) hk
        _ = 2 ^ 64 := by norm_num
    have h256 : leValue m (a + 1) k * 256 < 2 ^ 64 := by omega
    rw [Memory.readBytes, BitVec.toNat_or, BitVec.toNat_shiftLeft, BitVec.toNat_setWidth, ih, Nat.shiftLeft_eq,
      show (2 : Nat) ^ 8 = 256 by norm_num, Nat.mod_eq_of_lt h256, Nat.mod_eq_of_lt (by omega : (m.byteAt a).toNat < 2 ^ 64),
      Nat.or_comm, show leValue m (a + 1) k * 256 = 2 ^ 8 * leValue m (a + 1) k by ring,
      ← Nat.two_pow_add_eq_or_of_lt hlt, leValue]
    ring

/-- All that the fetch can answer (R46). -/
theorem State.fetchedWord_eq_some {w : InstWord} :
    s.fetchedWord d = some w ↔ inRange d s.pc .word = true ∧ w = (s.mem.readBytes s.pc.toNat 4).setWidth 32 := by
  unfold State.fetchedWord Memory.read
  by_cases h : inRange d s.pc .word = true <;> simp [h, Width.bytes, eq_comm]

theorem State.fetchedWord_eq_none : s.fetchedWord d = none ↔ inRange d s.pc .word = false := by
  unfold State.fetchedWord Memory.read
  by_cases h : inRange d s.pc .word = true <;> simp [h]

/-! ### Loads and stores -/

/-- When a load answers a next state, and which (R192). -/
theorem load_eq_next : load d n extend rd rs1 imm s = .next t ↔
    inRange d (loadAddress rs1 imm s) n = true ∧
      t = (s.setReg rd (extend (s.mem.readBytes (loadAddress rs1 imm s).toNat n.bytes))).setPc s.nextPc := by
  unfold load Memory.read
  by_cases h : inRange d (loadAddress rs1 imm s) n = true <;>
    simp [h, commitReg, commitRegPc, raiseMemoryFault, eq_comm]

/-- When a load traps, and with which record (R194, R203). -/
theorem load_eq_fault {f : Fault} : load d n extend rd rs1 imm s = .fault f ↔
    inRange d (loadAddress rs1 imm s) n = false ∧
      f = .memoryFault s.pc (s.fetchedWord d) (loadAddress rs1 imm s) n := by
  unfold load Memory.read
  by_cases h : inRange d (loadAddress rs1 imm s) n = true <;>
    simp [h, commitReg, commitRegPc, raiseMemoryFault, eq_comm]

/-- When a store answers a next state, and which (R193). -/
theorem store_eq_next : store d n rs1 rs2 imm s = .next t ↔
    inRange d (storeAddress rs1 imm s) n = true ∧
      t = { s with mem := s.mem.writeBytes (storeAddress rs1 imm s).toNat (s.reg rs2) n.bytes, pc := s.nextPc } := by
  unfold store Memory.write
  by_cases h : inRange d (storeAddress rs1 imm s) n = true <;> simp [h, raiseMemoryFault, eq_comm]

/-- When a store traps, and with which record (R194, R203). -/
theorem store_eq_fault {f : Fault} : store d n rs1 rs2 imm s = .fault f ↔
    inRange d (storeAddress rs1 imm s) n = false ∧
      f = .memoryFault s.pc (s.fetchedWord d) (storeAddress rs1 imm s) n := by
  unfold store Memory.write
  by_cases h : inRange d (storeAddress rs1 imm s) n = true <;> simp [h, raiseMemoryFault, eq_comm]

/-! ### The machine at any DRAM -/

/-- `exec` is `execAt` of the chosen DRAM. -/
theorem exec_eq_execAt : exec = execAt Config.dram := by
  funext i s; cases i <;> rfl

/-- `step` is `stepAt` of the chosen DRAM. -/
theorem step_eq_stepAt : step = stepAt Config.dram := by
  funext s; unfold step stepAt
  cases s.fetchedWord Config.dram with
  | none => rfl
  | some w =>
    cases h : decode w with
    | error e => simp only [h]
    | ok i => simp only [h, exec_eq_execAt]

/-- What holds of the machine at every DRAM holds of `step` and `exec` too. -/
theorem atEveryDram_of_forall {P : Dram → Stepper → Executor → Prop} (h : ∀ d, P d (stepAt d) (execAt d)) : AtEveryDram P :=
  ⟨by rw [step_eq_stepAt, exec_eq_execAt]; exact h _, h⟩

/-! ### What any instruction can do -/

/-- The three shapes of a committed step (R205, stage 4): a register and pc, pc alone, or memory and pc. -/
inductive Commits (d : Dram) (i : Instr) (s : State) : State → Prop where
  | reg (rd : RegIdx) (v target : Word) (hd : destOf i = some rd) (hs : isStore i = false)
      (hp : mayJump i = false → target = s.nextPc) : Commits d i s ((s.setReg rd v).setPc target)
  | pc (target : Word) (hd : destOf i = none) (hs : isStore i = false)
      (hp : mayJump i = false → target = s.nextPc) : Commits d i s (s.setPc target)
  | mem (addr : Word) (n : Width) (v : Word) (hd : destOf i = none) (hs : isStore i = true) (hj : mayJump i = false)
      (ha : dataAccess i s = some (addr, n)) (hr : inRange d addr n = true) :
      Commits d i s { s with mem := s.mem.writeBytes addr.toNat v n.bytes, pc := s.nextPc }

/-- Whatever instruction answers a next state commits in one of the three shapes. -/
theorem commits_of_execAt {i : Instr} (h : execAt d i s = .next t) : Commits d i s t := by
  cases i
  all_goals first
    | (obtain ⟨hr, rfl⟩ := store_eq_next.1 h; exact .mem _ _ _ rfl rfl rfl rfl hr)
    | (obtain ⟨-, rfl⟩ := load_eq_next.1 h; exact .reg _ _ _ rfl rfl fun _ => rfl)
    | (cases h; exact .reg _ _ _ rfl rfl fun _ => rfl)
    | (cases h; exact .reg _ _ _ rfl rfl fun hj => nomatch hj)
    | (cases h; exact .pc _ rfl rfl fun _ => rfl)
    | (cases h; exact .pc _ rfl rfl fun hj => nomatch hj)

end Sys2Proof.Machine
end

