-- ==== Sys2Proof/Laws/PerInstr.lean ====
section
/-! SUPPORT. Statements made per instruction (LAWS.json): the encoder puts every instruction in its own row of R84. -/

namespace Sys2Proof.Laws.EncodesItsRow

/-- The encoded word is the instruction of the table's row of that mnemonic (R84). -/
def Statement (i : Instr) : Prop :=
  ∃ r ∈ opcodeTable, r.mnemonic = i.mnemonic ∧ r.matchesWord (encode i) = true

/-! ### What the masks of R84 leave of an encoded word, format by format -/

section Masks

variable (f7 : BitVec 7) (f6 : BitVec 6) (rs2 rs1 rd : RegIdx) (f3 : BitVec 3) (op : BitVec 7)
variable (imm12 : BitVec 12) (imm13 : BitVec 13) (imm20 : BitVec 20) (imm21 : BitVec 21)
variable (shamt5 : BitVec 5) (shamt6 : BitVec 6)

theorem encodeR_mask : encodeR f7 rs2 rs1 f3 rd op &&& 0xfe00707f#32 = place 25 f7 ||| place 12 f3 ||| place 0 op := by
  simp only [encodeR]; ext i hi; simp [getElem_place]
  interval_cases i <;> simp

theorem encodeI_mask : encodeI imm12 rs1 f3 rd op &&& 0x0000707f#32 = place 12 f3 ||| place 0 op := by
  simp only [encodeI]; ext i hi; simp [getElem_place]
  interval_cases i <;> simp

theorem encodeS_mask : encodeS imm12 rs2 rs1 f3 op &&& 0x0000707f#32 = place 12 f3 ||| place 0 op := by
  simp only [encodeS]; ext i hi; simp [getElem_place]
  interval_cases i <;> simp

theorem encodeB_mask : encodeB imm13 rs2 rs1 f3 op &&& 0x0000707f#32 = place 12 f3 ||| place 0 op := by
  simp only [encodeB]; ext i hi; simp [getElem_place]
  interval_cases i <;> simp

theorem encodeU_mask : encodeU imm20 rd op &&& 0x0000007f#32 = place 0 op := by
  simp only [encodeU]; ext i hi; simp [getElem_place]
  interval_cases i <;> simp

theorem encodeJ_mask : encodeJ imm21 rd op &&& 0x0000007f#32 = place 0 op := by
  simp only [encodeJ]; ext i hi; simp [getElem_place]
  interval_cases i <;> simp

theorem encodeI_mask_funct7 : encodeI (place 5 f7 ||| place 0 shamt5) rs1 f3 rd op &&& 0xfe00707f#32 =
    place 25 f7 ||| place 12 f3 ||| place 0 op := by
  simp only [encodeI]; ext i hi; simp [getElem_place]
  interval_cases i <;> simp [getElem_place]

theorem encodeI_mask_funct6 : encodeI (place 6 f6 ||| place 0 shamt6) rs1 f3 rd op &&& 0x4000707f#32 =
    (place 26 f6 &&& 0x40000000#32) ||| place 12 f3 ||| place 0 op := by
  simp only [encodeI]; ext i hi; simp [getElem_place]
  interval_cases i <;> simp [getElem_place]

end Masks

theorem addi (rd rs1 : RegIdx) (imm : BitVec 12) : Statement (.addi rd rs1 imm) :=
  ⟨⟨"ADDI", 0x00000013#32, 0x0000707f#32⟩, by decide, rfl, by
    simp only [OpcodeRow.matchesWord, encode, encodeI_mask]; decide⟩
theorem slti (rd rs1 : RegIdx) (imm : BitVec 12) : Statement (.slti rd rs1 imm) :=
  ⟨⟨"SLTI", 0x00002013#32, 0x0000707f#32⟩, by decide, rfl, by
    simp only [OpcodeRow.matchesWord, encode, encodeI_mask]; decide⟩
theorem sltiu (rd rs1 : RegIdx) (imm : BitVec 12) : Statement (.sltiu rd rs1 imm) :=
  ⟨⟨"SLTIU", 0x00003013#32, 0x0000707f#32⟩, by decide, rfl, by
    simp only [OpcodeRow.matchesWord, encode, encodeI_mask]; decide⟩
theorem xori (rd rs1 : RegIdx) (imm : BitVec 12) : Statement (.xori rd rs1 imm) :=
  ⟨⟨"XORI", 0x00004013#32, 0x0000707f#32⟩, by decide, rfl, by
    simp only [OpcodeRow.matchesWord, encode, encodeI_mask]; decide⟩
theorem ori (rd rs1 : RegIdx) (imm : BitVec 12) : Statement (.ori rd rs1 imm) :=
  ⟨⟨"ORI", 0x00006013#32, 0x0000707f#32⟩, by decide, rfl, by
    simp only [OpcodeRow.matchesWord, encode, encodeI_mask]; decide⟩
theorem andi (rd rs1 : RegIdx) (imm : BitVec 12) : Statement (.andi rd rs1 imm) :=
  ⟨⟨"ANDI", 0x00007013#32, 0x0000707f#32⟩, by decide, rfl, by
    simp only [OpcodeRow.matchesWord, encode, encodeI_mask]; decide⟩
theorem slli (rd rs1 : RegIdx) (shamt : BitVec 6) : Statement (.slli rd rs1 shamt) :=
  ⟨⟨"SLLI", 0x00001013#32, 0x0000707f#32⟩, by decide, rfl, by
    simp only [OpcodeRow.matchesWord, encode, encodeI_mask]; decide⟩
theorem srli (rd rs1 : RegIdx) (shamt : BitVec 6) : Statement (.srli rd rs1 shamt) :=
  ⟨⟨"SRLI", 0x00005013#32, 0x4000707f#32⟩, by decide, rfl, by
    simp only [OpcodeRow.matchesWord, encode, encodeI_mask_funct6]; decide⟩
theorem srai (rd rs1 : RegIdx) (shamt : BitVec 6) : Statement (.srai rd rs1 shamt) :=
  ⟨⟨"SRAI", 0x40005013#32, 0x4000707f#32⟩, by decide, rfl, by
    simp only [OpcodeRow.matchesWord, encode, encodeI_mask_funct6]; decide⟩
theorem add (rd rs1 rs2 : RegIdx) : Statement (.add rd rs1 rs2) :=
  ⟨⟨"ADD", 0x00000033#32, 0xfe00707f#32⟩, by decide, rfl, by
    simp only [OpcodeRow.matchesWord, encode, encodeR_mask]; decide⟩
theorem sub (rd rs1 rs2 : RegIdx) : Statement (.sub rd rs1 rs2) :=
  ⟨⟨"SUB", 0x40000033#32, 0xfe00707f#32⟩, by decide, rfl, by
    simp only [OpcodeRow.matchesWord, encode, encodeR_mask]; decide⟩
theorem sll (rd rs1 rs2 : RegIdx) : Statement (.sll rd rs1 rs2) :=
  ⟨⟨"SLL", 0x00001033#32, 0xfe00707f#32⟩, by decide, rfl, by
    simp only [OpcodeRow.matchesWord, encode, encodeR_mask]; decide⟩
theorem slt (rd rs1 rs2 : RegIdx) : Statement (.slt rd rs1 rs2) :=
  ⟨⟨"SLT", 0x00002033#32, 0xfe00707f#32⟩, by decide, rfl, by
    simp only [OpcodeRow.matchesWord, encode, encodeR_mask]; decide⟩
theorem sltu (rd rs1 rs2 : RegIdx) : Statement (.sltu rd rs1 rs2) :=
  ⟨⟨"SLTU", 0x00003033#32, 0xfe00707f#32⟩, by decide, rfl, by
    simp only [OpcodeRow.matchesWord, encode, encodeR_mask]; decide⟩
theorem xor (rd rs1 rs2 : RegIdx) : Statement (.xor rd rs1 rs2) :=
  ⟨⟨"XOR", 0x00004033#32, 0xfe00707f#32⟩, by decide, rfl, by
    simp only [OpcodeRow.matchesWord, encode, encodeR_mask]; decide⟩
theorem srl (rd rs1 rs2 : RegIdx) : Statement (.srl rd rs1 rs2) :=
  ⟨⟨"SRL", 0x00005033#32, 0xfe00707f#32⟩, by decide, rfl, by
    simp only [OpcodeRow.matchesWord, encode, encodeR_mask]; decide⟩
theorem sra (rd rs1 rs2 : RegIdx) : Statement (.sra rd rs1 rs2) :=
  ⟨⟨"SRA", 0x40005033#32, 0xfe00707f#32⟩, by decide, rfl, by
    simp only [OpcodeRow.matchesWord, encode, encodeR_mask]; decide⟩
theorem or (rd rs1 rs2 : RegIdx) : Statement (.or rd rs1 rs2) :=
  ⟨⟨"OR", 0x00006033#32, 0xfe00707f#32⟩, by decide, rfl, by
    simp only [OpcodeRow.matchesWord, encode, encodeR_mask]; decide⟩
theorem and (rd rs1 rs2 : RegIdx) : Statement (.and rd rs1 rs2) :=
  ⟨⟨"AND", 0x00007033#32, 0xfe00707f#32⟩, by decide, rfl, by
    simp only [OpcodeRow.matchesWord, encode, encodeR_mask]; decide⟩
theorem addiw (rd rs1 : RegIdx) (imm : BitVec 12) : Statement (.addiw rd rs1 imm) :=
  ⟨⟨"ADDIW", 0x0000001b#32, 0x0000707f#32⟩, by decide, rfl, by
    simp only [OpcodeRow.matchesWord, encode, encodeI_mask]; decide⟩
theorem slliw (rd rs1 : RegIdx) (shamt : BitVec 5) : Statement (.slliw rd rs1 shamt) :=
  ⟨⟨"SLLIW", 0x0000101b#32, 0xfe00707f#32⟩, by decide, rfl, by
    simp only [OpcodeRow.matchesWord, encode, encodeI_mask_funct7]; decide⟩
theorem srliw (rd rs1 : RegIdx) (shamt : BitVec 5) : Statement (.srliw rd rs1 shamt) :=
  ⟨⟨"SRLIW", 0x0000501b#32, 0xfe00707f#32⟩, by decide, rfl, by
    simp only [OpcodeRow.matchesWord, encode, encodeI_mask_funct7]; decide⟩
theorem sraiw (rd rs1 : RegIdx) (shamt : BitVec 5) : Statement (.sraiw rd rs1 shamt) :=
  ⟨⟨"SRAIW", 0x4000501b#32, 0xfe00707f#32⟩, by decide, rfl, by
    simp only [OpcodeRow.matchesWord, encode, encodeI_mask_funct7]; decide⟩
theorem addw (rd rs1 rs2 : RegIdx) : Statement (.addw rd rs1 rs2) :=
  ⟨⟨"ADDW", 0x0000003b#32, 0xfe00707f#32⟩, by decide, rfl, by
    simp only [OpcodeRow.matchesWord, encode, encodeR_mask]; decide⟩
theorem subw (rd rs1 rs2 : RegIdx) : Statement (.subw rd rs1 rs2) :=
  ⟨⟨"SUBW", 0x4000003b#32, 0xfe00707f#32⟩, by decide, rfl, by
    simp only [OpcodeRow.matchesWord, encode, encodeR_mask]; decide⟩
theorem sllw (rd rs1 rs2 : RegIdx) : Statement (.sllw rd rs1 rs2) :=
  ⟨⟨"SLLW", 0x0000103b#32, 0xfe00707f#32⟩, by decide, rfl, by
    simp only [OpcodeRow.matchesWord, encode, encodeR_mask]; decide⟩
theorem srlw (rd rs1 rs2 : RegIdx) : Statement (.srlw rd rs1 rs2) :=
  ⟨⟨"SRLW", 0x0000503b#32, 0xfe00707f#32⟩, by decide, rfl, by
    simp only [OpcodeRow.matchesWord, encode, encodeR_mask]; decide⟩
theorem sraw (rd rs1 rs2 : RegIdx) : Statement (.sraw rd rs1 rs2) :=
  ⟨⟨"SRAW", 0x4000503b#32, 0xfe00707f#32⟩, by decide, rfl, by
    simp only [OpcodeRow.matchesWord, encode, encodeR_mask]; decide⟩
theorem lui (rd : RegIdx) (imm : BitVec 20) : Statement (.lui rd imm) :=
  ⟨⟨"LUI", 0x00000037#32, 0x0000007f#32⟩, by decide, rfl, by
    simp only [OpcodeRow.matchesWord, encode, encodeU_mask]; decide⟩
theorem auipc (rd : RegIdx) (imm : BitVec 20) : Statement (.auipc rd imm) :=
  ⟨⟨"AUIPC", 0x00000017#32, 0x0000007f#32⟩, by decide, rfl, by
    simp only [OpcodeRow.matchesWord, encode, encodeU_mask]; decide⟩
theorem jal (rd : RegIdx) (imm : BitVec 21) : Statement (.jal rd imm) :=
  ⟨⟨"JAL", 0x0000006f#32, 0x0000007f#32⟩, by decide, rfl, by
    simp only [OpcodeRow.matchesWord, encode, encodeJ_mask]; decide⟩
theorem jalr (rd rs1 : RegIdx) (imm : BitVec 12) : Statement (.jalr rd rs1 imm) :=
  ⟨⟨"JALR", 0x00000067#32, 0x0000707f#32⟩, by decide, rfl, by
    simp only [OpcodeRow.matchesWord, encode, encodeI_mask]; decide⟩
theorem beq (rs1 rs2 : RegIdx) (imm : BitVec 13) : Statement (.beq rs1 rs2 imm) :=
  ⟨⟨"BEQ", 0x00000063#32, 0x0000707f#32⟩, by decide, rfl, by
    simp only [OpcodeRow.matchesWord, encode, encodeB_mask]; decide⟩
theorem bne (rs1 rs2 : RegIdx) (imm : BitVec 13) : Statement (.bne rs1 rs2 imm) :=
  ⟨⟨"BNE", 0x00001063#32, 0x0000707f#32⟩, by decide, rfl, by
    simp only [OpcodeRow.matchesWord, encode, encodeB_mask]; decide⟩
theorem blt (rs1 rs2 : RegIdx) (imm : BitVec 13) : Statement (.blt rs1 rs2 imm) :=
  ⟨⟨"BLT", 0x00004063#32, 0x0000707f#32⟩, by decide, rfl, by
    simp only [OpcodeRow.matchesWord, encode, encodeB_mask]; decide⟩
theorem bge (rs1 rs2 : RegIdx) (imm : BitVec 13) : Statement (.bge rs1 rs2 imm) :=
  ⟨⟨"BGE", 0x00005063#32, 0x0000707f#32⟩, by decide, rfl, by
    simp only [OpcodeRow.matchesWord, encode, encodeB_mask]; decide⟩
theorem bltu (rs1 rs2 : RegIdx) (imm : BitVec 13) : Statement (.bltu rs1 rs2 imm) :=
  ⟨⟨"BLTU", 0x00006063#32, 0x0000707f#32⟩, by decide, rfl, by
    simp only [OpcodeRow.matchesWord, encode, encodeB_mask]; decide⟩
theorem bgeu (rs1 rs2 : RegIdx) (imm : BitVec 13) : Statement (.bgeu rs1 rs2 imm) :=
  ⟨⟨"BGEU", 0x00007063#32, 0x0000707f#32⟩, by decide, rfl, by
    simp only [OpcodeRow.matchesWord, encode, encodeB_mask]; decide⟩
theorem fence (fm pred succ : BitVec 4) (rs1 rd : RegIdx) : Statement (.fence fm pred succ rs1 rd) :=
  ⟨⟨"FENCE", 0x0000000f#32, 0x0000707f#32⟩, by decide, rfl, by
    simp only [OpcodeRow.matchesWord, encode, encodeI_mask]; decide⟩
theorem lb (rd rs1 : RegIdx) (imm : BitVec 12) : Statement (.lb rd rs1 imm) :=
  ⟨⟨"LB", 0x00000003#32, 0x0000707f#32⟩, by decide, rfl, by
    simp only [OpcodeRow.matchesWord, encode, encodeI_mask]; decide⟩
theorem lh (rd rs1 : RegIdx) (imm : BitVec 12) : Statement (.lh rd rs1 imm) :=
  ⟨⟨"LH", 0x00001003#32, 0x0000707f#32⟩, by decide, rfl, by
    simp only [OpcodeRow.matchesWord, encode, encodeI_mask]; decide⟩
theorem lw (rd rs1 : RegIdx) (imm : BitVec 12) : Statement (.lw rd rs1 imm) :=
  ⟨⟨"LW", 0x00002003#32, 0x0000707f#32⟩, by decide, rfl, by
    simp only [OpcodeRow.matchesWord, encode, encodeI_mask]; decide⟩
theorem ld (rd rs1 : RegIdx) (imm : BitVec 12) : Statement (.ld rd rs1 imm) :=
  ⟨⟨"LD", 0x00003003#32, 0x0000707f#32⟩, by decide, rfl, by
    simp only [OpcodeRow.matchesWord, encode, encodeI_mask]; decide⟩
theorem lbu (rd rs1 : RegIdx) (imm : BitVec 12) : Statement (.lbu rd rs1 imm) :=
  ⟨⟨"LBU", 0x00004003#32, 0x0000707f#32⟩, by decide, rfl, by
    simp only [OpcodeRow.matchesWord, encode, encodeI_mask]; decide⟩
theorem lhu (rd rs1 : RegIdx) (imm : BitVec 12) : Statement (.lhu rd rs1 imm) :=
  ⟨⟨"LHU", 0x00005003#32, 0x0000707f#32⟩, by decide, rfl, by
    simp only [OpcodeRow.matchesWord, encode, encodeI_mask]; decide⟩
theorem lwu (rd rs1 : RegIdx) (imm : BitVec 12) : Statement (.lwu rd rs1 imm) :=
  ⟨⟨"LWU", 0x00006003#32, 0x0000707f#32⟩, by decide, rfl, by
    simp only [OpcodeRow.matchesWord, encode, encodeI_mask]; decide⟩
theorem sb (rs1 rs2 : RegIdx) (imm : BitVec 12) : Statement (.sb rs1 rs2 imm) :=
  ⟨⟨"SB", 0x00000023#32, 0x0000707f#32⟩, by decide, rfl, by
    simp only [OpcodeRow.matchesWord, encode, encodeS_mask]; decide⟩
theorem sh (rs1 rs2 : RegIdx) (imm : BitVec 12) : Statement (.sh rs1 rs2 imm) :=
  ⟨⟨"SH", 0x00001023#32, 0x0000707f#32⟩, by decide, rfl, by
    simp only [OpcodeRow.matchesWord, encode, encodeS_mask]; decide⟩
theorem sw (rs1 rs2 : RegIdx) (imm : BitVec 12) : Statement (.sw rs1 rs2 imm) :=
  ⟨⟨"SW", 0x00002023#32, 0x0000707f#32⟩, by decide, rfl, by
    simp only [OpcodeRow.matchesWord, encode, encodeS_mask]; decide⟩
theorem sd (rs1 rs2 : RegIdx) (imm : BitVec 12) : Statement (.sd rs1 rs2 imm) :=
  ⟨⟨"SD", 0x00003023#32, 0x0000707f#32⟩, by decide, rfl, by
    simp only [OpcodeRow.matchesWord, encode, encodeS_mask]; decide⟩

end Sys2Proof.Laws.EncodesItsRow
end

