-- ==== Sys2Proof/Laws/Step.lean ====
section
/-! SUPPORT. What one step can do: the inversion of `stepAt` into fetch, decode and execute (R205). -/

namespace Sys2Proof.Machine

variable {d : Dram} {s t : State}

/-- When a step answers a next state. -/
theorem stepAt_eq_next : stepAt d s = .next t ↔
    ∃ w i, s.fetchedWord d = some w ∧ decode w = .ok i ∧ execAt d i s = .next t := by
  unfold stepAt
  cases hw : s.fetchedWord d with
  | none => simp [raiseMemoryFault]
  | some w =>
    cases hd : decode w with
    | error e => simp [hd, raiseIllegalInstruction]
    | ok i => simp [hd]

/-- When a step traps, in the order of R208. -/
theorem stepAt_eq_fault {f : Fault} : stepAt d s = .fault f ↔
    (s.fetchedWord d = none ∧ f = .memoryFault s.pc none s.pc .word) ∨
    (∃ w e, s.fetchedWord d = some w ∧ decode w = .error e ∧ f = .illegalInstruction w s.pc) ∨
    (∃ w i, s.fetchedWord d = some w ∧ decode w = .ok i ∧ execAt d i s = .fault f) := by
  unfold stepAt
  cases hw : s.fetchedWord d with
  | none => simp [raiseMemoryFault, hw, eq_comm]
  | some w =>
    cases hd : decode w with
    | error e => simp [hd, raiseIllegalInstruction, eq_comm]
    | ok i => simp [hd]

end Sys2Proof.Machine
end

