-- ==== Sys2Proof/Tests/Slice0.lean ====
section
/-! SUPPORT. The model's own tests. Expected values come from the spec: the encodings of R84 and R72, the vectors S, V, W, UI,
J, B, F, L, M and X of spec/95_test_vectors.md and spec/96_derived_vectors.md. After them, for each obligation with
hypotheses, a witness: states and operands that meet all of them together, at the boundaries of each clause. -/

namespace Sys2Proof.Tests

open Sys2Proof.Machine Sys2Proof.Claims

/-! ### Helpers -/

/-- The start state of the spec's vectors: DRAM of 1 MiB at 0x80000000, pc at its base, the word `w` there, and the given
registers and bytes. -/
def start (w : Nat) (regs : List (RegIdx × Word)) (cells : List Host.Cell) : State :=
  (regs.foldl (fun (s : State) p => s.setReg p.1 p.2)
    { State.reset with mem := { cells := cells } }).withFetchWord 32 w

/-- The 12 bytes that rows L1 to L19 and M1 to M8 start with. -/
def vectorBytes : List Host.Cell := [(0x80000100, 0x80), (0x80000101, 0x91), (0x80000102, 0xA2), (0x80000103, 0xB3),
  (0x80000104, 0xC4), (0x80000105, 0xD5), (0x80000106, 0xE6), (0x80000107, 0xF7), (0x80000108, 0x08), (0x80000109, 0x19),
  (0x8000010A, 0x2A), (0x8000010B, 0x3B)]

/-- The outcome is a next state with these registers and this pc. -/
def leaves (o : Host.Outcome State Fault Refusal) (regs : List (RegIdx × Word)) (pc : Word) : Bool :=
  match o with
  | .next t => regs.all (fun p => t.reg p.1 == p.2) && t.pc == pc
  | .fault _ => false
  | .refused _ => false

/-- The outcome is a next state with these bytes from `a` up and this pc. -/
def stores (o : Host.Outcome State Fault Refusal) (a : Nat) (bytes : List Byte) (pc : Word) : Bool :=
  match o with
  | .next t => bytes.zipIdx.all (fun p => t.mem.byteAt (a + p.2) == p.1) && t.pc == pc
  | .fault _ => false
  | .refused _ => false

/-- The outcome is this trap record. -/
def traps (o : Host.Outcome State Fault Refusal) (f : Fault) : Bool :=
  match o with
  | .next _ => false
  | .fault g => g == f
  | .refused _ => false

/-- The outcome is a next state. -/
def completes (o : Host.Outcome State Fault Refusal) : Bool :=
  match o with
  | .next _ => true
  | .fault _ => false
  | .refused _ => false

theorem exists_next_of_completes {o : Host.Outcome State Fault Refusal} (h : completes o = true) : ∃ t, o = .next t := by
  cases o with
  | next t => exact ⟨t, rfl⟩
  | fault f => cases h
  | refused r => cases h

theorem eq_fault_of_traps {o : Host.Outcome State Fault Refusal} {f : Fault} (h : traps o f = true) : o = .fault f := by
  cases o with
  | next t => cases h
  | fault g => rw [eq_of_beq h]
  | refused r => cases h

/-- Each word, given as a row of the opcode table, decodes to its instruction. -/
def decodesAll (l : List (Nat × Instr)) : Bool := l.all fun p => decodeTableWord 32 p.1 == some p.2

/-- The word is rejected for this reason. -/
def rejects (w : InstWord) (r : Reject) : Bool :=
  match decode w with
  | .ok _ => false
  | .error e => e == r

/-- Small legal parameters: DRAM of 4 bytes that ends at `2^64`, holding the self-loop word. -/
def topParams : Params where
  dram := ⟨0xFFFFFFFFFFFFFFFC, 4⟩
  memInit := imageContents [0x6F, 0x00, 0x00, 0x00] (fun _ => 0)
  xregReset := fun i => i.setWidth 64

/-! ### WellFormed: an ill-formed term for each check -/

theorem test_ill_formed_jal : (Instr.jal 1 1).wellFormed = false := by decide
theorem test_ill_formed_beq : (Instr.beq 6 7 1).wellFormed = false := by decide
theorem test_ill_formed_bne : (Instr.bne 6 7 0x1FFF).wellFormed = false := by decide
theorem test_ill_formed_blt : (Instr.blt 6 7 3).wellFormed = false := by decide
theorem test_ill_formed_bge : (Instr.bge 6 7 5).wellFormed = false := by decide
theorem test_ill_formed_bltu : (Instr.bltu 6 7 0x1001).wellFormed = false := by decide
theorem test_ill_formed_bgeu : (Instr.bgeu 6 7 9).wellFormed = false := by decide

/-! ### Decode: a word of each instruction, and a word for each reason to reject -/

/-- Illegal words of the X rows and of W21, by the item of R86 that rejects them. -/
theorem test_rejects :
    rejects 0x00000000 .noSuchOpcode ∧ rejects 0xFFFFFFFF .noSuchOpcode ∧ rejects 0x00000073 .noSuchOpcode ∧
    rejects 0x0000202F .noSuchOpcode ∧ rejects 0x00001067 .jalrFunct3 ∧ rejects 0x00003063 .branchFunct3 ∧
    rejects 0x00007003 .loadFunct3 ∧ rejects 0x00004023 .storeFunct3 ∧ rejects 0x0000100F .miscMemFunct3 ∧
    rejects 0x02B50533 .opFunct ∧ rejects 0x40001033 .opFunct ∧ rejects 0x0212929B .opImm32Funct ∧
    rejects 0x0000201B .opImm32Funct ∧ rejects 0x4000103B .op32Funct ∧ rejects 0x02B5453B .op32Funct := by decide

/-- Fewer than four bytes are no instruction (R70). -/
theorem test_decode_truncated : (match decodeBytes [0x13, 0x01, 0x60] with | .error e => e == .truncated | .ok _ => false) = true := by
  decide

/-- Four bytes are decoded lowest address first and the rest is handed back (R46). -/
theorem test_decode_bytes : (match decodeBytes [0x13, 0x01, 0x60, 0xFF, 0xAA] with
    | .ok (i, rest) => i == .addi 2 0 0xFF6 && rest == [0xAA]
    | .error _ => false) = true := by decide

/-- Words of the patterns of R84, fields left to right as R72 lays them out. -/
theorem test_decode_arith_immediate : decodesAll [
    (0b000000000001_00110_000_00101_0010011, .addi 5 6 1),
    (0b111111111111_00110_010_00101_0010011, .slti 5 6 0xFFF),
    (0b000000000001_00000_011_00101_0010011, .sltiu 5 0 1),
    (0b111111111111_00110_100_00101_0010011, .xori 5 6 0xFFF),
    (0b111100000000_00110_110_00101_0010011, .ori 5 6 0xF00),
    (0b000011111111_00110_111_00101_0010011, .andi 5 6 0x0FF),
    (0b000000_111111_00110_001_00101_0010011, .slli 5 6 63),
    (0b000000_100001_00110_101_00101_0010011, .srli 5 6 33),
    (0b010000_000011_00110_101_00101_0010011, .srai 5 6 3)] = true := by decide

/-- Words of the patterns of R84, fields left to right as R72 lays them out. -/
theorem test_decode_arith_register : decodesAll [
    (0b0000000_00111_00110_000_00101_0110011, .add 5 6 7),
    (0b0100000_00111_00110_000_00101_0110011, .sub 5 6 7),
    (0b0000000_00111_00110_001_00101_0110011, .sll 5 6 7),
    (0b0000000_00111_00110_010_00101_0110011, .slt 5 6 7),
    (0b0000000_00111_00110_011_00101_0110011, .sltu 5 6 7),
    (0b0000000_00111_00110_100_00101_0110011, .xor 5 6 7),
    (0b0000000_00111_00110_101_00101_0110011, .srl 5 6 7),
    (0b0100000_00111_00110_101_00101_0110011, .sra 5 6 7),
    (0b0000000_00111_00110_110_00101_0110011, .or 5 6 7),
    (0b0000000_11111_10000_111_00001_0110011, .and 1 16 31)] = true := by decide

/-- Words of the patterns of R84, fields left to right as R72 lays them out. -/
theorem test_decode_word : decodesAll [
    (0b111111111111_00110_000_00101_0011011, .addiw 5 6 0xFFF),
    (0b0000000_11111_00110_001_00101_0011011, .slliw 5 6 31),
    (0b0000000_00100_00110_101_00101_0011011, .srliw 5 6 4),
    (0b0100000_11111_00110_101_00101_0011011, .sraiw 5 6 31),
    (0b0000000_00111_00110_000_00101_0111011, .addw 5 6 7),
    (0b0100000_00111_00110_000_00101_0111011, .subw 5 6 7),
    (0b0000000_00111_00110_001_00101_0111011, .sllw 5 6 7),
    (0b0000000_00111_00110_101_00101_0111011, .srlw 5 6 7),
    (0b0100000_00111_00110_101_00101_0111011, .sraw 5 6 7)] = true := by decide

/-- Words of the patterns of R84, fields left to right as R72 lays them out. -/
theorem test_decode_upper_and_jumps : decodesAll [
    (0b10000000000000000000_01010_0110111, .lui 10 0x80000),
    (0b00000000000000101010_01010_0010111, .auipc 10 42),
    (0b0_0000010101_0_00000000_00001_1101111, .jal 1 42),
    (0b1_0000000000_0_00000000_00001_1101111, .jal 1 0x100000),
    (0b0_0000000000_1_00000000_00000_1101111, .jal 0 0x000800),
    (0b0_0000000000_0_00000001_00000_1101111, .jal 0 0x001000),
    (0b111111111000_01011_000_01010_1100111, .jalr 10 11 0xFF8),
    (0b1010_0000_0000_00101_000_00110_0001111, .fence 0xA 0 0 5 6),
    (0b0000_1111_0011_00000_000_00000_0001111, .fence 0 0xF 3 0 0)] = true := by decide

/-- Words of the patterns of R84, fields left to right as R72 lays them out. -/
theorem test_decode_branch : decodesAll [
    (0b0_000000_00111_00110_000_1000_0_1100011, .beq 6 7 16),
    (0b1_000000_00111_00110_001_0000_0_1100011, .bne 6 7 0x1000),
    (0b0_000000_00111_00110_100_0000_1_1100011, .blt 6 7 0x0800),
    (0b0_100000_00111_00110_101_0000_0_1100011, .bge 6 7 0x0400),
    (0b0_000001_00111_00110_110_0000_0_1100011, .bltu 6 7 0x0020),
    (0b1_111111_00111_00110_111_1111_1_1100011, .bgeu 6 7 0x1FFE)] = true := by decide

/-- Words of the patterns of R84, fields left to right as R72 lays them out. -/
theorem test_decode_load : decodesAll [
    (0b111111110000_00110_000_00101_0000011, .lb 5 6 0xFF0),
    (0b000000000001_00110_001_00101_0000011, .lh 5 6 1),
    (0b000000000011_00110_010_00101_0000011, .lw 5 6 3),
    (0b000000000100_00110_011_00101_0000011, .ld 5 6 4),
    (0b000000000001_00110_100_00101_0000011, .lbu 5 6 1),
    (0b100000000000_00110_101_00101_0000011, .lhu 5 6 0x800),
    (0b011111111111_00110_110_00101_0000011, .lwu 5 6 0x7FF)] = true := by decide

/-- Words of the patterns of R84, fields left to right as R72 lays them out. -/
theorem test_decode_store : decodesAll [
    (0b0111111_00101_00110_000_11111_0100011, .sb 6 5 0x7FF),
    (0b1111111_00101_00110_001_11111_0100011, .sh 6 5 0xFFF),
    (0b0000001_00101_00110_010_00000_0100011, .sw 6 5 0x020),
    (0b0000000_00101_00110_011_10000_0100011, .sd 6 5 0x010)] = true := by decide

/-! ### One step of each instruction (spec/95_test_vectors.md, spec/96_derived_vectors.md) -/

/-- Vectors S1, V1. -/
theorem test_addi :
    leaves (step (start 0xFF600113 [] [])) [(2, 0xFFFFFFFFFFFFFFF6)] 0x80000004 = true ∧
    leaves (step (start 0x00130293 [(6, 0x7FFFFFFFFFFFFFFF)] [])) [(5, 0x8000000000000000)] 0x80000004 = true := by decide

/-- Vectors V7, S3d. -/
theorem test_slti :
    leaves (step (start 0xFFF32293 [(6, 0x8000000000000000)] [])) [(5, 0x1)] 0x80000004 = true ∧
    leaves (step (start 0x00832293 [(6, 0xA)] [])) [(5, 0x0)] 0x80000004 = true := by decide

/-- Vectors V8, S3h. -/
theorem test_sltiu :
    leaves (step (start 0xFFF33293 [(6, 0x5)] [])) [(5, 0x1)] 0x80000004 = true ∧
    leaves (step (start 0x00133293 [(6, 0xFFFFFFFFFFFFFFFF)] [])) [(5, 0x0)] 0x80000004 = true := by decide

/-- Vector V11. -/
theorem test_xori :
    leaves (step (start 0xFFF34293 [(6, 0xFF00FF00FF00FF)] [])) [(5, 0xFF00FF00FF00FF00)] 0x80000004 = true := by decide

/-- Vector V12. -/
theorem test_ori :
    leaves (step (start 0xF0036293 [(6, 0x12)] [])) [(5, 0xFFFFFFFFFFFFFF12)] 0x80000004 = true := by decide

/-- Vectors V13, V14. -/
theorem test_andi :
    leaves (step (start 0xFF037293 [(6, 0x123456789ABCDEFF)] [])) [(5, 0x123456789ABCDEF0)] 0x80000004 = true ∧
    leaves (step (start 0x0FF37293 [(6, 0xFFFFFFFFFFFFFFFF)] [])) [(5, 0xFF)] 0x80000004 = true := by decide

/-- Vectors V20, V21. -/
theorem test_slli :
    leaves (step (start 0x02031293 [(6, 0xFFFFFFFF)] [])) [(5, 0xFFFFFFFF00000000)] 0x80000004 = true ∧
    leaves (step (start 0x04129293 [(5, 0x3)] [])) [(5, 0x6)] 0x80000004 = true := by decide

/-- Vectors V17, V22. -/
theorem test_srli :
    leaves (step (start 0x03F35293 [(6, 0x8000000000000000)] [])) [(5, 0x1)] 0x80000004 = true ∧
    leaves (step (start 0x8012D293 [(5, 0x8000000000000008)] [])) [(5, 0x4000000000000004)] 0x80000004 = true := by decide

/-- Vectors S4, V23. -/
theorem test_srai :
    leaves (step (start 0x40335293 [(6, 0xFFFFFFFFFFFFFFF0)] [])) [(5, 0xFFFFFFFFFFFFFFFE)] 0x80000004 = true ∧
    leaves (step (start 0xC012D293 [(5, 0x8000000000000008)] [])) [(5, 0xC000000000000004)] 0x80000004 = true := by decide

/-- Vectors V24, V26. -/
theorem test_add :
    leaves (step (start 0x007302B3 [(6, 0xFFFFFFFFFFFFFFFF), (7, 0x1)] [])) [(5, 0x0)] 0x80000004 = true ∧
    leaves (step (start 0x005282B3 [(5, 0x15)] [])) [(5, 0x2A)] 0x80000004 = true := by decide

/-- Vectors V27, V28. -/
theorem test_sub :
    leaves (step (start 0x407302B3 [(6, 0x0), (7, 0x1)] [])) [(5, 0xFFFFFFFFFFFFFFFF)] 0x80000004 = true ∧
    leaves (step (start 0x407302B3 [(6, 0x8000000000000000), (7, 0x1)] [])) [(5, 0x7FFFFFFFFFFFFFFF)] 0x80000004 = true := by decide

/-- Vectors S2, V31. -/
theorem test_sll :
    leaves (step (start 0x007312B3 [(6, 0x1), (7, 0x40)] [])) [(5, 0x1)] 0x80000004 = true ∧
    leaves (step (start 0x007312B3 [(6, 0x1), (7, 0xFFFFFFFFFFFFFFFF)] [])) [(5, 0x8000000000000000)] 0x80000004 = true := by decide

/-- Vectors V32, V34. -/
theorem test_slt :
    leaves (step (start 0x007322B3 [(6, 0x8000000000000000), (7, 0x7FFFFFFFFFFFFFFF)] [])) [(5, 0x1)] 0x80000004 = true ∧
    leaves (step (start 0x006322B3 [(5, 0x9), (6, 0x3)] [])) [(5, 0x0)] 0x80000004 = true := by decide

/-- Vectors V33, V35. -/
theorem test_sltu :
    leaves (step (start 0x007332B3 [(6, 0x8000000000000000), (7, 0x7FFFFFFFFFFFFFFF)] [])) [(5, 0x0)] 0x80000004 = true ∧
    leaves (step (start 0x006032B3 [(6, 0x100)] [])) [(5, 0x1)] 0x80000004 = true := by decide

/-- Vector V36. -/
theorem test_xor :
    leaves (step (start 0x007342B3 [(6, 0xFF00FF00FF00FF00), (7, 0xFF00FF00FF00FF0)] [])) [(5, 0xF0F0F0F0F0F0F0F0)] 0x80000004 = true := by decide

/-- Vectors V39, V42. -/
theorem test_srl :
    leaves (step (start 0x007352B3 [(6, 0x8000000000000000), (7, 0x4)] [])) [(5, 0x800000000000000)] 0x80000004 = true ∧
    leaves (step (start 0x007352B3 [(6, 0xFFFFFFFFFFFFFFFF), (7, 0x40)] [])) [(5, 0xFFFFFFFFFFFFFFFF)] 0x80000004 = true := by decide

/-- Vectors V40, V41. -/
theorem test_sra :
    leaves (step (start 0x407352B3 [(6, 0x8000000000000000), (7, 0x44)] [])) [(5, 0xF800000000000000)] 0x80000004 = true ∧
    leaves (step (start 0x407352B3 [(6, 0x7FFFFFFFFFFFFFFF), (7, 0x4)] [])) [(5, 0x7FFFFFFFFFFFFFF)] 0x80000004 = true := by decide

/-- Vector V37. -/
theorem test_or :
    leaves (step (start 0x007362B3 [(6, 0xFF00FF00FF00FF00), (7, 0xFF00FF00FF00FF0)] [])) [(5, 0xFFF0FFF0FFF0FFF0)] 0x80000004 = true := by decide

/-- Vector V38. -/
theorem test_and :
    leaves (step (start 0x007372B3 [(6, 0xFF00FF00FF00FF00), (7, 0xFF00FF00FF00FF0)] [])) [(5, 0xF000F000F000F00)] 0x80000004 = true := by decide

/-- Vectors W1, W4. -/
theorem test_addiw :
    leaves (step (start 0x0013029B [(6, 0x7FFFFFFF)] [])) [(5, 0xFFFFFFFF80000000)] 0x80000004 = true ∧
    leaves (step (start 0x0003029B [(6, 0xFFFFFFFF7FFFFFFF)] [])) [(5, 0x7FFFFFFF)] 0x80000004 = true := by decide

/-- Vectors W5, W6. -/
theorem test_slliw :
    leaves (step (start 0x01F3129B [(6, 0x1)] [])) [(5, 0xFFFFFFFF80000000)] 0x80000004 = true ∧
    leaves (step (start 0x0013129B [(6, 0xC0000000)] [])) [(5, 0xFFFFFFFF80000000)] 0x80000004 = true := by decide

/-- Vectors W7, W8. -/
theorem test_srliw :
    leaves (step (start 0x0003529B [(6, 0x12345678FFFFFFFF)] [])) [(5, 0xFFFFFFFFFFFFFFFF)] 0x80000004 = true ∧
    leaves (step (start 0x0043529B [(6, 0xFFFFFFFF80000000)] [])) [(5, 0x8000000)] 0x80000004 = true := by decide

/-- Vectors W9, W10. -/
theorem test_sraiw :
    leaves (step (start 0x4043529B [(6, 0x80000000)] [])) [(5, 0xFFFFFFFFF8000000)] 0x80000004 = true ∧
    leaves (step (start 0x41F3529B [(6, 0x7FFFFFFF)] [])) [(5, 0x0)] 0x80000004 = true := by decide

/-- Vectors S8, W12. -/
theorem test_addw :
    leaves (step (start 0x007302BB [(6, 0x2A), (7, 0x7F000000)] [])) [(5, 0x7F00002A)] 0x80000004 = true ∧
    leaves (step (start 0x007302BB [(6, 0xDEADBEEF00000001), (7, 0x1234567800000002)] [])) [(5, 0x3)] 0x80000004 = true := by decide

/-- Vectors W14, W15. -/
theorem test_subw :
    leaves (step (start 0x407302BB [(6, 0x0), (7, 0x1)] [])) [(5, 0xFFFFFFFFFFFFFFFF)] 0x80000004 = true ∧
    leaves (step (start 0x407302BB [(6, 0x80000000), (7, 0x1)] [])) [(5, 0x7FFFFFFF)] 0x80000004 = true := by decide

/-- Vectors W16, W17. -/
theorem test_sllw :
    leaves (step (start 0x007312BB [(6, 0x80000001), (7, 0x20)] [])) [(5, 0xFFFFFFFF80000001)] 0x80000004 = true ∧
    leaves (step (start 0x007312BB [(6, 0x1), (7, 0x3F)] [])) [(5, 0xFFFFFFFF80000000)] 0x80000004 = true := by decide

/-- Vector W18. -/
theorem test_srlw :
    leaves (step (start 0x007352BB [(6, 0xFFFFFFFF80000000), (7, 0x21)] [])) [(5, 0x40000000)] 0x80000004 = true := by decide

/-- Vectors W19, W20. -/
theorem test_sraw :
    leaves (step (start 0x407352BB [(6, 0x80000000), (7, 0x1F)] [])) [(5, 0xFFFFFFFFFFFFFFFF)] 0x80000004 = true ∧
    leaves (step (start 0x407352BB [(6, 0xFFFFFFFF40000000), (7, 0x4)] [])) [(5, 0x4000000)] 0x80000004 = true := by decide

/-- Vectors S5a, UI1. -/
theorem test_lui :
    leaves (step (start 0x0002A537 [] [])) [(10, 0x2A000)] 0x80000004 = true ∧
    leaves (step (start 0x80000537 [] [])) [(10, 0xFFFFFFFF80000000)] 0x80000004 = true := by decide

/-- Vectors S5b, UI6. -/
theorem test_auipc :
    leaves (step (start 0x0002A517 [] [])) [(10, 0x8002A000)] 0x80000004 = true ∧
    leaves (step (start 0x80000517 [] [])) [(10, 0x0)] 0x80000004 = true := by decide

/-- Vectors S6, J4. -/
theorem test_jal :
    leaves (step (start 0x02A000EF [] [])) [(1, 0x80000004)] 0x8000002A = true ∧
    leaves (step (start 0x800000EF [] [])) [(1, 0x80000004)] 0x7FF00000 = true := by decide

/-- Vectors J7, J9. -/
theorem test_jalr :
    leaves (step (start 0x00430367 [(6, 0x80000100)] [])) [(6, 0x80000004)] 0x80000104 = true ∧
    leaves (step (start 0xFFF300E7 [(6, 0x0)] [])) [(1, 0x80000004)] 0xFFFFFFFFFFFFFFFE = true := by decide

/-- Vectors B1, B18. -/
theorem test_beq :
    leaves (step (start 0x00730863 [(6, 0x5), (7, 0x5)] [])) [(6, 0x5), (7, 0x5)] 0x80000010 = true ∧
    leaves (step (start 0x80000063 [] [])) [] 0x7FFFF000 = true := by decide

/-- Vectors B3, B4. -/
theorem test_bne :
    leaves (step (start 0x00731863 [(6, 0x5), (7, 0x6)] [])) [(6, 0x5), (7, 0x6)] 0x80000010 = true ∧
    leaves (step (start 0x00731863 [(6, 0x5), (7, 0x5)] [])) [(6, 0x5), (7, 0x5)] 0x80000004 = true := by decide

/-- Vectors B5, B9. -/
theorem test_blt :
    leaves (step (start 0x00734863 [(6, 0xFFFFFFFFFFFFFFFF), (7, 0x1)] [])) [(6, 0xFFFFFFFFFFFFFFFF), (7, 0x1)] 0x80000010 = true ∧
    leaves (step (start 0x00734863 [(6, 0x7), (7, 0x7)] [])) [(6, 0x7), (7, 0x7)] 0x80000004 = true := by decide

/-- Vector B6, and the same word taken: 1 is below `2^64 - 1` unsigned (R166). -/
theorem test_bltu :
    leaves (step (start 0x00736863 [(6, 0xFFFFFFFFFFFFFFFF), (7, 0x1)] [])) [(6, 0xFFFFFFFFFFFFFFFF), (7, 0x1)] 0x80000004 = true ∧
    leaves (step (start 0x00736863 [(6, 0x1), (7, 0xFFFFFFFFFFFFFFFF)] [])) [(6, 0x1)] 0x80000010 = true := by decide

/-- Vectors B10, B7. -/
theorem test_bge :
    leaves (step (start 0x00735863 [(6, 0x7), (7, 0x7)] [])) [(6, 0x7), (7, 0x7)] 0x80000010 = true ∧
    leaves (step (start 0x00735863 [(6, 0xFFFFFFFFFFFFFFFF), (7, 0x1)] [])) [(6, 0xFFFFFFFFFFFFFFFF), (7, 0x1)] 0x80000004 = true := by decide

/-- Vectors B8, B16. -/
theorem test_bgeu :
    leaves (step (start 0x00737863 [(6, 0xFFFFFFFFFFFFFFFF), (7, 0x1)] [])) [(6, 0xFFFFFFFFFFFFFFFF), (7, 0x1)] 0x80000010 = true ∧
    leaves (step (start 0x00737863 [(6, 0x1), (7, 0xFFFFFFFFFFFFFFFF)] [])) [(6, 0x1), (7, 0xFFFFFFFFFFFFFFFF)] 0x80000004 = true := by decide

/-- Vectors F1, F3. -/
theorem test_fence :
    leaves (step (start 0x0FF0000F [(5, 0x1), (6, 0x2)] [])) [(5, 0x1), (6, 0x2)] 0x80000004 = true ∧
    leaves (step (start 0xA002830F [(5, 0x1), (6, 0x2)] [])) [(5, 0x1), (6, 0x2)] 0x80000004 = true := by decide

/-- Vectors L1, L17. -/
theorem test_lb :
    leaves (step (start 0x00030283 [(6, 0x80000100)] vectorBytes)) [(5, 0xFFFFFFFFFFFFFF80)] 0x80000004 = true ∧
    leaves (step (start 0xFFF30283 [(6, 0x80000101)] vectorBytes)) [(5, 0xFFFFFFFFFFFFFF80)] 0x80000004 = true := by decide

/-- Vector L6. -/
theorem test_lh :
    leaves (step (start 0x00131283 [(6, 0x80000100)] vectorBytes)) [(5, 0xFFFFFFFFFFFFA291)] 0x80000004 = true := by decide

/-- Vectors L11, L29. -/
theorem test_lw :
    leaves (step (start 0x00332283 [(6, 0x80000100)] vectorBytes)) [(5, 0xFFFFFFFFE6D5C4B3)] 0x80000004 = true ∧
    leaves (step (start 0x00032283 [(6, 0x80000000)] [])) [(5, 0x32283)] 0x80000004 = true := by decide

/-- Vectors L15, L23. -/
theorem test_ld :
    leaves (step (start 0x00133283 [(6, 0x80000100)] vectorBytes)) [(5, 0x8F7E6D5C4B3A291)] 0x80000004 = true ∧
    leaves (step (start 0x00033283 [(6, 0x800FFFF8)] [(0x800FFFF8, 0x01), (0x800FFFF9, 0x02), (0x800FFFFA, 0x03), (0x800FFFFB, 0x04), (0x800FFFFC, 0x05), (0x800FFFFD, 0x06), (0x800FFFFE, 0x07), (0x800FFFFF, 0x08)])) [(5, 0x807060504030201)] 0x80000004 = true := by decide

/-- Vector L21. -/
theorem test_lbu :
    leaves (step (start 0x00034283 [(6, 0x800FFFFF)] [(0x800FFFFF, 0x5A)])) [(5, 0x5A)] 0x80000004 = true := by decide

/-- Vector L5. -/
theorem test_lhu :
    leaves (step (start 0x00035283 [(6, 0x80000100)] vectorBytes)) [(5, 0x9180)] 0x80000004 = true := by decide

/-- Vector L12. -/
theorem test_lwu :
    leaves (step (start 0x00336283 [(6, 0x80000100)] vectorBytes)) [(5, 0xE6D5C4B3)] 0x80000004 = true := by decide

/-- Vectors M9, M10. -/
theorem test_sb :
    stores (step (start 0x7E530FA3 [(5, 0xAB), (6, 0x80000100)] [])) 0x800008FF [0xAB] 0x80000004 = true ∧
    stores (step (start 0x80530023 [(5, 0xAB), (6, 0x80001000)] [])) 0x80000800 [0xAB] 0x80000004 = true := by decide

/-- Vector M6. -/
theorem test_sh :
    stores (step (start 0xFE531FA3 [(5, 0x1122334455667788), (6, 0x80000102)] vectorBytes)) 0x80000100 [0x80, 0x88, 0x77, 0xB3, 0xC4, 0xD5, 0xE6, 0xF7, 0x08, 0x19, 0x2A, 0x3B] 0x80000004 = true := by decide

/-- Vectors M3, M7. -/
theorem test_sw :
    stores (step (start 0x00532023 [(5, 0x1122334455667788), (6, 0x80000100)] vectorBytes)) 0x80000100 [0x88, 0x77, 0x66, 0x55, 0xC4, 0xD5, 0xE6, 0xF7, 0x08, 0x19, 0x2A, 0x3B] 0x80000004 = true ∧
    stores (step (start 0x00032223 [(6, 0x80000100)] vectorBytes)) 0x80000100 [0x80, 0x91, 0xA2, 0xB3, 0x00, 0x00, 0x00, 0x00, 0x08, 0x19, 0x2A, 0x3B] 0x80000004 = true := by decide

/-- Vectors M5, M11. -/
theorem test_sd :
    stores (step (start 0x005331A3 [(5, 0x1122334455667788), (6, 0x80000100)] vectorBytes)) 0x80000100 [0x80, 0x91, 0xA2, 0x88, 0x77, 0x66, 0x55, 0x44, 0x33, 0x22, 0x11, 0x3B] 0x80000004 = true ∧
    stores (step (start 0x00533023 [(5, 0x1122334455667788), (6, 0x800FFFF8)] [])) 0x800FFFF8 [0x88, 0x77, 0x66, 0x55, 0x44, 0x33, 0x22, 0x11] 0x80000004 = true := by decide

/-! ### Traps (vectors X1, X3, W22, S10, L20, L22, L26, L27, M12, M13) and runs -/

theorem test_illegal_words_trap :
    traps (step (start 0x00000000 [] [])) (.illegalInstruction 0x00000000 0x80000000) ∧
    traps (step (start 0x00000073 [] [])) (.illegalInstruction 0x00000073 0x80000000) ∧
    traps (step (start 0x4212D29B [(5, 3)] [])) (.illegalInstruction 0x4212D29B 0x80000000) := by decide

theorem test_loads_out_of_range_trap :
    traps (step (start 0x00032003 [(6, 0x100)] [])) (.memoryFault 0x80000000 (some 0x00032003) 0x100 .word) ∧
    traps (step (start 0x00035283 [(6, 0x800FFFFF)] [])) (.memoryFault 0x80000000 (some 0x00035283) 0x800FFFFF .half) ∧
    traps (step (start 0x00130283 [(6, 0xFFFFFFFFFFFFFFFF)] [])) (.memoryFault 0x80000000 (some 0x00130283) 0 .byte) ∧
    traps (step (start 0x00033283 [(6, 0xFFFFFFFFFFFFFFFC)] []))
      (.memoryFault 0x80000000 (some 0x00033283) 0xFFFFFFFFFFFFFFFC .double) := by decide

theorem test_stores_out_of_range_trap :
    traps (step (start 0x00533023 [(5, 7), (6, 0x80100000)] [])) (.memoryFault 0x80000000 (some 0x00533023) 0x80100000 .double) ∧
    traps (step (start 0x00533023 [(5, 7), (6, 0x800FFFF9)] [])) (.memoryFault 0x80000000 (some 0x00533023) 0x800FFFF9 .double) ∧
    traps (step (start 0xFE532F23 [(5, 7), (6, 0x80000000)] [])) (.memoryFault 0x80000000 (some 0xFE532F23) 0x7FFFFFFE .word) := by
  decide

/-- The fetch reads 4 bytes at pc or faults, at both ends of DRAM (R46). -/
theorem test_fetch_out_of_range_traps :
    traps (step (State.reset.setPc 0x7FFFFFFC)) (.memoryFault 0x7FFFFFFC none 0x7FFFFFFC .word) ∧
    traps (step (State.reset.setPc 0x800FFFFE)) (.memoryFault 0x800FFFFE none 0x800FFFFE .word) := by decide

/-- With no program placed the first step from reset is an IllegalInstruction on the word 0 (log entry 4). -/
theorem test_bare_reset_traps : traps (step State.reset) (.illegalInstruction 0 0x80000000) = true := by decide

/-- "`a0` is register 10" (vector S12, after S5a). -/
theorem test_register_a0 :
    (start 0 [(10, 0x2A000)] []).getRegisterByName "a0" = some ((start 0 [(10, 0x2A000)] []).getRegisterByIndex 10) := by decide

/-- The machine with its DRAM at other addresses: it runs the self-loop at the top of the address space, where `step`, whose
DRAM is elsewhere, faults on the fetch. -/
theorem test_step_at_another_dram :
    leaves (stepAt topParams.dram (State.boot topParams)) [(0, 0), (31, 31)] 0xFFFFFFFFFFFFFFFC = true ∧
    traps (step (State.boot topParams)) (.memoryFault 0xFFFFFFFFFFFFFFFC none 0xFFFFFFFFFFFFFFFC .word) = true := by decide

/-! ### Witnesses: states and operands that meet the hypotheses of each obligation -/

section Witnesses

theorem wit_DecodeOfEncodeIsIdentity :
    (Instr.jal 31 0x0FFFFE).wellFormed = true ∧ (Instr.beq 31 0 0x1000).wellFormed = true ∧ (Instr.srai 5 6 63).wellFormed = true := by
  decide

theorem wit_EncodeOfDecodeIsIdentityOnCanonicalWords :
    (decode 0x43F35293 = .ok (.srai 5 6 63) ∧ CanonicalWord 0x43F35293) ∧
    (decode 0xA002830F = .ok (.fence 0xA 0 0 5 6) ∧ CanonicalWord 0xA002830F) := by
  unfold CanonicalWord slice; decide

theorem wit_DecodeAgreesWithOpcodeTable :
    ⟨"SRAI", 0x40005013#32, 0x4000707f#32⟩ ∈ opcodeTable ∧ decode 0xC012D293 = .ok (.srai 5 5 1) ∧
    0xC012D293#32 &&& 0x4000707f#32 = 0x40005013#32 := by decide

theorem wit_DecodedFieldsAreSlicesOfTheWord : decode 0x800000EF = .ok (.jal 1 0x100000) := by decide

theorem wit_DecodedInstructionsAreWellFormed : decode 0xFE029EE3 = .ok (.bne 5 0 0x1FFC) := by decide

theorem wit_NonCanonicalShiftImmediatesAreMasked :
    (slice 0x04129293 6 0 = 0x13 ∧ slice 0x04129293 14 12 = 1) ∧
    (slice 0x8012D293 6 0 = 0x13 ∧ slice 0x8012D293 14 12 = 5 ∧ slice 0x8012D293 30 30 = 0) ∧
    (slice 0xC012D293 6 0 = 0x13 ∧ slice 0xC012D293 14 12 = 5 ∧ slice 0xC012D293 30 30 = 1) := by decide

theorem wit_StepRunsTheDecodedInstruction :
    (start 0xFF600113 [] []).fetchedWord Config.dram = some 0xFF600113 ∧ decode 0xFF600113 = .ok (.addi 2 0 0xFF6) := by decide

theorem wit_FetchReadsFourBytesAtPcLittleEndian :
    (inRange Config.dram 0x800FFFFC .word = true ∧ inRange Config.dram 0x80000001 .word = true) ∧
    (inRange Config.dram 0x800FFFFD .word = false ∧ inRange Config.dram 0x7FFFFFFF .word = false) := by
  decide

theorem wit_IllegalWordTraps :
    (start 0x02000033 [] []).fetchedWord Config.dram = some 0x02000033 ∧ IllegalWord 0x02000033 ∧
    step (start 0x02000033 [] []) = .fault (.illegalInstruction 0x02000033 0x80000000) :=
  ⟨by decide, by unfold IllegalWord slice; decide, eq_fault_of_traps (by decide)⟩

theorem wit_SystemInstructionsAreIllegal :
    (start 0x30200073 [] []).fetchedWord Config.dram = some 0x30200073 ∧ slice 0x30200073 6 0 = 0x73 := by decide

/-- Both sides of the equivalence occur. -/
theorem wit_StepSucceedsExactlyWhenFetchDecodeAndAccessDo :
    (∃ t, step (start 0x00034283 [(6, 0x800FFFFF)] []) = .next t) ∧ ¬ ∃ t, step (start 0x00035283 [(6, 0x800FFFFF)] []) = .next t := by
  refine ⟨exists_next_of_completes (by decide), ?_⟩
  rintro ⟨t, h⟩
  have hf := eq_fault_of_traps (o := step (start 0x00035283 [(6, 0x800FFFFF)] []))
    (f := .memoryFault 0x80000000 (some 0x00035283) 0x800FFFFF .half) (by decide)
  rw [h] at hf; cases hf

/-- Each of the three origins occurs. -/
theorem wit_TrapsHaveThreeOriginsAndTheirRecords :
    step (State.reset.setPc 0x800FFFFD) = .fault (.memoryFault 0x800FFFFD none 0x800FFFFD .word) ∧
    step (start 0x0000100F [] []) = .fault (.illegalInstruction 0x0000100F 0x80000000) ∧
    step (start 0x00530023 [(6, 0x80100000)] []) = .fault (.memoryFault 0x80000000 (some 0x00530023) 0x80100000 .byte) :=
  ⟨eq_fault_of_traps (by decide), eq_fault_of_traps (by decide), eq_fault_of_traps (by decide)⟩

theorem wit_EveryStepKeepsTheInvariant :
    (start 0x00533023 [(5, 7), (6, 0x800FFFF8)] []).Inv Config.dram ∧ ∃ t, step (start 0x00533023 [(5, 7), (6, 0x800FFFF8)] []) = .next t :=
  ⟨by decide, exists_next_of_completes (by decide)⟩

theorem wit_ResetStateMeetsTheInvariant : topParams.dram.Ok ∧ Config.params.dram.Ok := by decide

theorem wit_BootStateIsAsTheResetTableSays : (31#5 ≠ 0#5) ∧ 0 < topParams.dram.size ∧ 3 < topParams.dram.size := by decide

theorem wit_FirstInstructionIsTheImagesFirstWord :
    topParams.dram.Ok ∧ topParams.memInit = imageContents [0x6F, 0x00, 0x00, 0x00] (fun _ => 0) := ⟨by decide, rfl⟩

theorem wit_AnInstructionPlacedAtPcRuns :
    (Instr.bgeu 6 7 0x1FFE).wellFormed = true ∧ inRange Config.dram 0x800FFFFC .word = true ∧
    inRange Config.dram State.reset.pc .word = true := by decide

theorem wit_OnlyTheDestinationStoresAndJumpsChange :
    (∃ t, exec (.xor 5 6 7) State.reset = .next t) ∧ destOf (.xor 5 6 7) ≠ some 6#5 ∧ isStore (.xor 5 6 7) = false ∧
    mayJump (.xor 5 6 7) = false := ⟨exists_next_of_completes (by decide), by decide, rfl, rfl⟩

theorem wit_WritesToX0AreDiscarded :
    destOf (.lw 0 6 0) = some 0#5 ∧ (∃ t, exec (.lw 0 6 0) (start 0x00032003 [(6, 0x800FFFFC)] []) = .next t) ∧
    exec (.lw 0 6 0) (start 0x00032003 [(6, 0x800FFFFD)] []) = .fault (.memoryFault 0x80000000 (some 0x00032003) 0x800FFFFD .word) :=
  ⟨rfl, exists_next_of_completes (by decide), eq_fault_of_traps (by decide)⟩

theorem wit_ObservationReadsRegistersByIndexAndName : "x10" ∉ registerNames.map Prod.fst ∧ ("a0", 10#5) ∈ registerNames := by decide

/-- A run whose first trap is on its last step, and one that is longer. -/
theorem wit_ARunStopsAtItsFirstTrap :
    run step 1 (start 0 [] []) = .firstTrap (.illegalInstruction 0 0x80000000) (start 0 [] []) ∧
    ∃ b, run step 2 (start 0x0FF0000F [] []) = .firstTrap (.illegalInstruction 0 0x80000004) b := by
  constructor
  · have h := eq_fault_of_traps (o := step (start 0 [] [])) (f := .illegalInstruction 0 0x80000000) (by decide)
    rw [run, h]
  · have h1 : step (start 0x0FF0000F [] []) = .next ((start 0x0FF0000F [] []).setPc 0x80000004) := rfl
    have h2 := eq_fault_of_traps (o := step ((start 0x0FF0000F [] []).setPc 0x80000004))
      (f := .illegalInstruction 0 0x80000004) (by decide)
    exact ⟨(start 0x0FF0000F [] []).setPc 0x80000004, by simp only [run, h1, h2]⟩

theorem wit_SelfLoopIsAFixedPoint : (start 0x0000006F [] []).fetchedWord Config.dram = some 0x0000006F := by decide

theorem wit_SetLessThanComparesSignedOrUnsigned :
    let s := start 0 [(6, 0x8000000000000000), (7, 0x7FFFFFFFFFFFFFFF)] []
    (5#5 ≠ 0#5 ∧ (s.reg 6).msb ≠ (s.reg 7).msb) ∧ (∃ t, exec (.slt 5 6 7) s = .next t) ∧ ∃ u, exec (.sltu 5 6 7) s = .next u :=
  ⟨by decide, exists_next_of_completes (by decide), exists_next_of_completes (by decide)⟩

/-- Amounts 1 and 65 (the claim's own example), each of the three shifts completing in both states. -/
theorem wit_RegisterShiftAmountsAreModulo64 :
    let s := start 0 [(6, 3), (7, 1)] []
    let s' := start 0 [(6, 3), (7, 65)] []
    (s.reg 6 = s'.reg 6 ∧ (s.reg 7).toNat % 64 = (s'.reg 7).toNat % 64) ∧
    (∃ t, exec (.sll 5 6 7) s = .next t) ∧ (∃ t, exec (.sll 5 6 7) s' = .next t) ∧
    (∃ t, exec (.srl 5 6 7) s = .next t) ∧ (∃ t, exec (.srl 5 6 7) s' = .next t) ∧
    (∃ t, exec (.sra 5 6 7) s = .next t) ∧ ∃ t, exec (.sra 5 6 7) s' = .next t :=
  ⟨by decide, exists_next_of_completes (by decide), exists_next_of_completes (by decide), exists_next_of_completes (by decide),
    exists_next_of_completes (by decide), exists_next_of_completes (by decide), exists_next_of_completes (by decide)⟩

theorem wit_WordResultsIgnoreTheHighHalves :
    let s := start 0 [(6, 0x80000000)] []
    let s' := start 0 [(6, 0xFFFFFFFF80000000)] []
    (isWordOp (.srliw 5 6 4) = true ∧ destOf (.srliw 5 6 4) = some 5#5 ∧ s ≠ s' ∧
      ∀ r, (s.reg r).toNat % 2 ^ 32 = (s'.reg r).toNat % 2 ^ 32) ∧
    (∃ t, exec (.srliw 5 6 4) s = .next t) ∧ ∃ t, exec (.srliw 5 6 4) s' = .next t :=
  ⟨by decide, exists_next_of_completes (by decide), exists_next_of_completes (by decide)⟩

theorem wit_FenceOnlyAdvancesPc :
    slice 0xFFFF8F8F 6 0 = 0x0F ∧ slice 0xFFFF8F8F 14 12 = 0 ∧
    (start 0xFFFF8F8F [] []).fetchedWord Config.dram = some 0xFFFF8F8F := by decide

/-- Each kind of jump, with a target that is out of range, in range but no multiple of 4, or the branch itself. -/
theorem wit_NoJumpTargetIsChecked :
    JumpsTo (.jal 1 0x1FFFFC) State.reset 0x7FFFFFFC ∧ JumpsTo (.jalr 1 6 0xFFF) State.reset 0xFFFFFFFFFFFFFFFE ∧
    JumpsTo (.beq 0 0 6) State.reset 0x80000006 ∧ JumpsTo (.bne 6 0 0x1000) (start 0 [(6, 1)] []) 0x7FFFF000 ∧
    JumpsTo (.blt 6 0 0) (start 0 [(6, 0xFFFFFFFFFFFFFFFF)] []) 0x80000000 ∧ JumpsTo (.bge 0 0 16) State.reset 0x80000010 ∧
    JumpsTo (.bltu 0 6 0x0FFE) (start 0 [(6, 1)] []) 0x80000FFE ∧ JumpsTo (.bgeu 0 0 2) State.reset 0x80000002 ∧
    inRange Config.dram 0x7FFFFFFC .word = false ∧ inRange Config.dram 0x80000006 .word = true :=
  ⟨.inl ⟨_, _, rfl, by decide⟩, .inr (.inl ⟨_, _, _, rfl, by decide⟩), .inr (.inr ⟨_, _, _, by decide, .inl ⟨rfl, rfl⟩⟩),
    .inr (.inr ⟨_, _, _, by decide, .inr (.inl ⟨rfl, by decide⟩)⟩),
    .inr (.inr ⟨_, _, _, by decide, .inr (.inr (.inl ⟨rfl, by decide⟩))⟩),
    .inr (.inr ⟨_, _, _, by decide, .inr (.inr (.inr (.inl ⟨rfl, by decide⟩)))⟩),
    .inr (.inr ⟨_, _, _, by decide, .inr (.inr (.inr (.inr (.inl ⟨rfl, by decide⟩))))⟩),
    .inr (.inr ⟨_, _, _, by decide, .inr (.inr (.inr (.inr (.inr ⟨rfl, by decide⟩))))⟩), by decide, by decide⟩

theorem wit_RangeCheckIsInUnboundedIntegers :
    topParams.dram.Ok ∧ 2 ^ 64 < (0xFFFFFFFFFFFFFFFD : Word).toNat + Width.word.bytes ∧
    inRange topParams.dram 0xFFFFFFFFFFFFFFFD .word = false ∧
    inRange topParams.dram 0xFFFFFFFFFFFFFFFC .word = true := by decide

/-- Each width at the last address that is in range, and at the first. -/
theorem wit_LoadsReadLittleEndianAndExtend :
    let s := start 0 [(6, 0x80100000), (7, 0x80000000)] []
    (inRange Config.dram (offsetBy (s.reg 6) (-1)) .byte = true ∧ inRange Config.dram (offsetBy (s.reg 6) (-2)) .half = true ∧
      inRange Config.dram (offsetBy (s.reg 6) (-4)) .word = true ∧ inRange Config.dram (offsetBy (s.reg 6) (-8)) .double = true) ∧
    inRange Config.dram (offsetBy (s.reg 7) 0) .byte = true ∧ inRange Config.dram (offsetBy (s.reg 7) 0) .half = true ∧
      inRange Config.dram (offsetBy (s.reg 7) 0) .word = true ∧ inRange Config.dram (offsetBy (s.reg 7) 0) .double = true := by decide

/-- A base one past the end of DRAM and a negative offset, for each width. -/
theorem wit_StoresWriteTheLowBytesOnly :
    let s := start 0 [(6, 0x80100000)] []
    inRange Config.dram (offsetBy (s.reg 6) (0xFFF#12).toInt) .byte = true ∧ inRange Config.dram (offsetBy (s.reg 6) (0xFFE#12).toInt) .half = true ∧
    inRange Config.dram (offsetBy (s.reg 6) (0xFFC#12).toInt) .word = true ∧ inRange Config.dram (offsetBy (s.reg 6) (0xFF8#12).toInt) .double = true := by
  decide

/-- Each width at the first address past the last good one and at the one below DRAM. -/
theorem wit_DataAccessOutOfRangeFaultsAndCommitsNothing :
    let s := start 0 [(6, 0x80100000), (7, 0x80000000)] []
    (inRange Config.dram (offsetBy (s.reg 6) 0) .byte = false ∧ inRange Config.dram (offsetBy (s.reg 6) (-1)) .half = false ∧
      inRange Config.dram (offsetBy (s.reg 6) (-3)) .word = false ∧ inRange Config.dram (offsetBy (s.reg 6) (-7)) .double = false) ∧
    (inRange Config.dram (offsetBy (s.reg 7) (-1)) .byte = false ∧ inRange Config.dram (offsetBy (s.reg 7) (-1)) .half = false ∧
      inRange Config.dram (offsetBy (s.reg 7) (-1)) .word = false ∧ inRange Config.dram (offsetBy (s.reg 7) (-1)) .double = false) ∧
    exec (.sb 6 5 0) s = .fault (.memoryFault 0x80000000 (some 0) 0x80100000 .byte) :=
  ⟨by decide, by decide, eq_fault_of_traps (by decide)⟩

theorem wit_MixedWidthAccessesSeeTheStoredBytes :
    Config.dram.Ok ∧ (∃ m, State.reset.mem.write Config.dram 0x800FFFF8 .double 0x1122334455667788 = some m) ∧
    ∃ m, State.reset.mem.write Config.dram 0x80000003 .double 0x1122334455667788 = some m :=
  ⟨by decide, ⟨_, rfl⟩, ⟨_, rfl⟩⟩

theorem wit_UnalignedReadsAreTheirSingleByteReads :
    Config.dram.Ok ∧ (∃ v, State.reset.mem.read Config.dram 0x800FFFFB .word = some v) ∧ State.reset.mem.read Config.dram 0x800FFFFD .word = none :=
  ⟨by decide, ⟨_, rfl⟩, rfl⟩

theorem wit_ReadsReturnTheLastValueWritten :
    (∃ m, State.reset.mem.write Config.dram 0x80000104 .word 0xFFFFFFFFFFFFFFFF = some m) ∧
    ((0x80000100 : Word).toNat + Width.word.bytes ≤ (0x80000104 : Word).toNat ∧
      (0x80000104 : Word).toNat + Width.word.bytes ≤ (0x80000108 : Word).toNat) := ⟨⟨_, rfl⟩, by decide⟩

theorem wit_AStoreIsSeenByTheNextFetch :
    let s := start 0x00532223 [(5, 0x00000013), (6, 0x80000000)] []
    (∃ t, exec (.sw 6 5 4) s = .next t) ∧ storeAddress 6 4 s = offsetBy s.pc 4 :=
  ⟨exists_next_of_completes (by decide), by decide⟩

/-- Two ways to write the same bytes, the second with a byte written and cleared again. -/
theorem wit_CanonicalMemoriesWithEqualBytesAreEqual :
    let m := State.reset.mem.setByte 0x80000001 5
    let m' := ((State.reset.mem.setByte 0x80000002 9).setByte 0x80000001 5).setByte 0x80000002 0
    m.wfIn Config.dram = true ∧ m'.wfIn Config.dram = true ∧ ∀ a, m.byteAt a = m'.byteAt a :=
  ⟨by decide, by decide, fun a => congrArg (lookupCell a) (by decide)⟩

/-- An instruction of each kind without a data access; and two different DRAMs that agree on the fetch and on the access of
the instruction fetched, a byte load that both hold in one state and neither in the other. -/
theorem wit_ParametersReachAStepOnlyByRangeChecks :
    (dataAccess (.sub 5 6 7) State.reset = none ∧ dataAccess (.jalr 1 6 4) State.reset = none ∧
      dataAccess (.fence 0 15 15 0 0) State.reset = none) ∧
    let small : Dram := ⟨0x80000000, 4⟩
    let s := start 0x00034283 [(6, 0x80000003)] []
    let s' := start 0x00034283 [(6, 0x80100000)] []
    small ≠ Config.dram ∧ decode 0x00034283 = .ok (.lbu 5 6 0) ∧
    (inRange small s.pc .word = inRange Config.dram s.pc .word ∧ s.fetchedWord small = some 0x00034283 ∧
      inRange small (loadAddress 6 0 s) .byte = true ∧ inRange Config.dram (loadAddress 6 0 s) .byte = true) ∧
    (inRange small s'.pc .word = inRange Config.dram s'.pc .word ∧ s'.fetchedWord small = some 0x00034283 ∧
      inRange small (loadAddress 6 0 s') .byte = false ∧ inRange Config.dram (loadAddress 6 0 s') .byte = false) := by decide

end Witnesses

end Sys2Proof.Tests
end

section
/-! The observation interface: what a lookup in the register-name table answers, and the claim about the read accessors
(spec/00_scope.md R14; spec/10_state.md R24). -/

namespace Sys2Proof.Machine

variable {s : State} {name : String} {i : RegIdx}

/-- No name has two rows, so the first row a lookup meets is the name's only one. -/
theorem registerIndex_of_mem : ∀ p ∈ registerNames, registerIndex p.1 = some p.2 := by decide

theorem registerIndex_eq_none (h : name ∉ registerNames.map Prod.fst) : registerIndex name = none := by
  refine List.lookup_eq_none_iff.mpr fun p hp => bne_iff_ne.mpr ?_
  rintro rfl
  exact h (List.mem_map_of_mem hp)

theorem mem_registerNames_snd : ∀ i : RegIdx, i ∈ registerNames.map Prod.snd := by decide

theorem exists_registerIndex_eq (i : RegIdx) : ∃ name, registerIndex name = some i := by
  obtain ⟨p, hp, rfl⟩ := List.mem_map.mp (mem_registerNames_snd i)
  exact ⟨p.1, registerIndex_of_mem p hp⟩

@[simp] theorem State.getRegisterByIndex_eq_reg : s.getRegisterByIndex i = s.reg i := rfl

@[simp] theorem State.getPc_eq_pc : s.getPc = s.pc := rfl

theorem State.getRegisterByName_eq_some (h : registerIndex name = some i) :
    s.getRegisterByName name = some (s.getRegisterByIndex i) := by
  rw [State.getRegisterByName, h, Option.map_some]

theorem State.getRegisterByName_eq_none (h : registerIndex name = none) : s.getRegisterByName name = none := by
  rw [State.getRegisterByName, h, Option.map_none]

/-- Settles O24: the accessors by index and `pc` are the state's own, and an access by name is the lookup of the name's
index, where each row's name has that row's index, any other name has none, and every index has a row. -/
theorem observationReadsRegistersByIndexAndName : Obligations.ObservationReadsRegistersByIndexAndName := by
  intro s
  have row : ∀ p ∈ registerNames, s.getRegisterByName p.1 = some (s.getRegisterByIndex p.2) :=
    fun p hp => State.getRegisterByName_eq_some (registerIndex_of_mem p hp)
  exact ⟨State.reg_zero s, fun _ => State.getRegisterByIndex_eq_reg, row ("a0", 10#5) (by decide), row,
    fun _ h => State.getRegisterByName_eq_none (registerIndex_eq_none h), exists_registerIndex_eq, State.getPc_eq_pc⟩

end Sys2Proof.Machine
end

section
/-! What an instruction that completes leaves unchanged, read off the three shapes of `Commits` (spec/10_state.md R25, R28,
R34). -/

namespace Sys2Proof.Machine

variable {d : Dram} {i : Instr} {s t : State} {r : RegIdx}

/-- The register read looks at the register file alone. -/
theorem State.reg_congr (h : t.x = s.x) : t.reg r = s.reg r := by
  unfold State.reg; rw [h]

/-- `pc + 4`, in arithmetic (R28). -/
theorem State.toNat_nextPc (s : State) : s.nextPc.toNat = (s.pc.toNat + 4) % 2 ^ 64 := BitVec.toNat_add ..

theorem Commits.reg_of_destOf_ne (h : Commits d i s t) (hr : destOf i ≠ some r) : t.reg r = s.reg r := by
  cases h with
  | reg rd v target hd =>
    have hne : r ≠ rd := fun h => hr (h ▸ hd)
    simp [hne]
  | pc target => rfl
  | mem addr n v => exact State.reg_congr rfl

theorem Commits.mem_of_not_isStore (h : Commits d i s t) (hs : isStore i = false) : t.mem = s.mem := by
  cases h with
  | reg rd v target => simp
  | pc target => rfl
  | mem addr n v hd hs' => simp [hs] at hs'

theorem Commits.pc_of_not_mayJump (h : Commits d i s t) (hj : mayJump i = false) : t.pc = s.nextPc := by
  cases h with
  | reg rd v target hd hs hp => exact hp hj
  | pc target hd hs hp => exact hp hj
  | mem addr n v => rfl

/-- Settles O22: each clause is a frame fact about the shapes of `Commits`, one of which every completed instruction has. -/
theorem onlyTheDestinationStoresAndJumpsChange : Obligations.OnlyTheDestinationStoresAndJumpsChange := by
  refine atEveryDram_of_forall fun d i s t h => ?_
  have hc : Commits d i s t := commits_of_execAt h
  refine ⟨fun r => hc.reg_of_destOf_ne, fun hs a => ?_, fun hj => ?_⟩
  · rw [hc.mem_of_not_isStore hs]
  · rw [hc.pc_of_not_mayJump hj, State.toNat_nextPc]

end Sys2Proof.Machine
end

section
/-! Every instruction the decoder answers is well formed: the immediates of the branches and of JAL, the only ones that
`Instr.wellFormed` looks at, are read with bit 0 zero (spec/30_encoding.md R76, R78). -/

namespace Sys2Proof

variable {w : InstWord} {i : Instr}

theorem decodeBranch_wellFormed (h : decodeBranch w = .ok i) : i.wellFormed = true := by
  have himm : (!(immBOf w).getLsbD 0) = true := congrArg not (immBOf_even w)
  simp only [decodeBranch] at h
  split_ifs at h <;> cases h <;> exact himm

theorem decodeLoad_wellFormed (h : decodeLoad w = .ok i) : i.wellFormed = true := by
  simp only [decodeLoad] at h
  split_ifs at h <;> cases h <;> rfl

theorem decodeStore_wellFormed (h : decodeStore w = .ok i) : i.wellFormed = true := by
  simp only [decodeStore] at h
  split_ifs at h <;> cases h <;> rfl

theorem decodeOpImm_wellFormed (w : InstWord) : (decodeOpImm w).wellFormed = true := by
  simp only [decodeOpImm]
  split_ifs <;> rfl

theorem decodeOp_wellFormed (h : decodeOp w = .ok i) : i.wellFormed = true := by
  simp only [decodeOp] at h
  split_ifs at h <;> cases h <;> rfl

theorem decodeMiscMem_wellFormed (h : decodeMiscMem w = .ok i) : i.wellFormed = true := by
  simp only [decodeMiscMem] at h
  split_ifs at h
  cases h; rfl

theorem decodeOpImm32_wellFormed (h : decodeOpImm32 w = .ok i) : i.wellFormed = true := by
  simp only [decodeOpImm32] at h
  split_ifs at h <;> cases h <;> rfl

theorem decodeOp32_wellFormed (h : decodeOp32 w = .ok i) : i.wellFormed = true := by
  simp only [decodeOp32] at h
  split_ifs at h <;> cases h <;> rfl

/-- A choice of two decoders answers a well-formed instruction when both do. -/
theorem wellFormed_of_ite {c : Prop} [Decidable c] {x y : Except Reject Instr} (hx : x = .ok i → i.wellFormed = true)
    (hy : y = .ok i → i.wellFormed = true) (h : (if c then x else y) = .ok i) : i.wellFormed = true := by
  by_cases hc : c
  · rw [if_pos hc] at h; exact hx h
  · rw [if_neg hc] at h; exact hy h

/-- One case for each major opcode, in the decoder's order (R83). -/
theorem decode_wellFormed : decode w = .ok i → i.wellFormed = true := by
  refine wellFormed_of_ite ?lui <| wellFormed_of_ite ?auipc <| wellFormed_of_ite ?jal <|
    wellFormed_of_ite (wellFormed_of_ite ?jalr nofun) <| wellFormed_of_ite decodeBranch_wellFormed <|
    wellFormed_of_ite decodeLoad_wellFormed <| wellFormed_of_ite decodeStore_wellFormed <| wellFormed_of_ite ?opImm <|
    wellFormed_of_ite decodeOp_wellFormed <| wellFormed_of_ite decodeMiscMem_wellFormed <|
    wellFormed_of_ite decodeOpImm32_wellFormed <| wellFormed_of_ite decodeOp32_wellFormed nofun
  case lui => rintro ⟨⟩; rfl
  case auipc => rintro ⟨⟩; rfl
  case jal => rintro ⟨⟩; exact congrArg not (immJOf_even w)
  case jalr => rintro ⟨⟩; rfl
  case opImm => rintro ⟨⟩; exact decodeOpImm_wellFormed w

end Sys2Proof
end

section
/-! The invariant along a step: slot 0 and the canonical form are kept by the shapes of `Commits`, and pc stays even because
every target is (spec/10_state.md R29). -/

namespace Sys2Proof.Machine

variable {d : Dram} {i : Instr} {s t : State}

/-! ### Even targets -/

theorem toNat_add_even {a b : Word} (ha : a.toNat % 2 = 0) (hb : b.toNat % 2 = 0) : (a + b).toNat % 2 = 0 := by
  rw [BitVec.toNat_add]; omega

/-- Sign extension keeps bit 0. -/
theorem toNat_signExtend_even {n : Nat} {imm : BitVec (n + 1)} (h : imm.getLsbD 0 = false) :
    (imm.signExtend 64).toNat % 2 = 0 := by
  have hbit : (imm.signExtend 64).getLsbD 0 = false := by
    rw [BitVec.getLsbD_signExtend, if_pos (Nat.succ_pos n), h, Bool.and_false]
  rw [BitVec.getLsbD, Nat.testBit_zero] at hbit
  simpa using hbit

theorem State.nextPc_even (hs : s.pc.toNat % 2 = 0) : s.nextPc.toNat % 2 = 0 := toNat_add_even hs rfl

/-- The mask of R161 has bit 0 zero, so the target is even whatever the register holds. -/
theorem jalrTarget_even (rs1 : RegIdx) (imm : BitVec 12) (s : State) : (jalrTarget rs1 imm s).toNat % 2 = 0 := by
  rw [jalrTarget, BitVec.toNat_and]
  exact (Nat.and_mod_two_pow (n := 1)).trans (Nat.and_zero _)

theorem branch_pc_even {taken : Bool} {imm : BitVec 13} (himm : (!imm.getLsbD 0) = true) (hs : s.pc.toNat % 2 = 0)
    (h : branch taken imm s = .next t) : t.pc.toNat % 2 = 0 := by
  cases h
  cases taken with
  | false => exact State.nextPc_even hs
  | true => exact toNat_add_even hs (toNat_signExtend_even (Bool.eq_false_of_not_eq_true' himm))

/-- A completed instruction leaves pc even: at `pc + 4`, or at the even target of a jump or branch. -/
theorem pc_even_of_execAt (hi : i.wellFormed = true) (hs : s.pc.toNat % 2 = 0) (h : execAt d i s = .next t) :
    t.pc.toNat % 2 = 0 := by
  by_cases hj : mayJump i = false
  · rw [(commits_of_execAt h).pc_of_not_mayJump hj]
    exact State.nextPc_even hs
  · cases i with
    | jal rd imm =>
      cases h
      exact toNat_add_even hs (toNat_signExtend_even (Bool.eq_false_of_not_eq_true' hi))
    | jalr rd rs1 imm => cases h; exact jalrTarget_even rs1 imm s
    | beq | bne | blt | bge | bltu | bgeu => exact branch_pc_even hi hs h
    | _ => exact absurd rfl hj

/-! ### The invariant -/

theorem Commits.slot_zero (h : Commits d i s t) : t.x[0] = s.x[0] := by
  cases h with
  | reg rd v target => simp
  | pc target => rfl
  | mem addr n v => rfl

theorem Commits.mem_wf (h : Commits d i s t) (hm : s.mem.wfIn d = true) : t.mem.wfIn d = true := by
  cases h with
  | reg rd v target => simpa using hm
  | pc target => exact hm
  | mem addr n v hd hs hj ha hr => exact Memory.writeBytes_wf hm ((inRange_iff ..).1 hr).1 ((inRange_iff ..).1 hr).2

theorem State.Inv.execAt_next (hs : s.Inv d) (hi : i.wellFormed = true) (h : execAt d i s = .next t) : t.Inv d := by
  obtain ⟨hx, hpc, hmem⟩ := hs
  have hc : Commits d i s t := commits_of_execAt h
  exact ⟨hc.slot_zero.trans hx, pc_even_of_execAt hi hpc h, hc.mem_wf hmem⟩

/-- Settles O16: a step that completes is the execution of a decoded, so well-formed, instruction, and that keeps the
invariant. -/
theorem everyStepKeepsTheInvariant : Obligations.EveryStepKeepsTheInvariant := by
  refine atEveryDram_of_forall fun d s t hs h => ?_
  obtain ⟨w, i, -, hdec, hexec⟩ := stepAt_eq_next.1 h
  exact hs.execAt_next (decode_wellFormed hdec) hexec

end Sys2Proof.Machine
end

section
/-! The canonical form determines the image: the first cells of two canonical lists with the same bytes are at the lowest
address that does not read as an unlisted one (spec/10_state.md R33; log entry 14). -/

namespace Sys2Proof.Machine

variable {d : Dram} {m m' : Memory} {lo lo' hi hi' a a' : Nat} {b b' : Byte} {l l' : List Host.Cell}

theorem canonicalCells_cons : canonicalCells lo hi ((a, b) :: l) = true ↔
    lo ≤ a ∧ a < hi ∧ b ≠ Config.unlistedByte ∧ canonicalCells (a + 1) hi l = true := by
  simp [canonicalCells, and_assoc]

theorem Memory.wfIn_iff : m.wfIn d = true ↔
    d.Ok ∧ canonicalCells d.base.toNat (d.base.toNat + d.size) m.cells = true := by
  rw [Memory.wfIn, Bool.and_eq_true, decide_eq_true_eq]

/-- Nothing is listed below the first address a canonical list may use. -/
theorem lookupCell_of_lt (hl : canonicalCells lo hi l = true) (ha : a < lo) : lookupCell a l = Config.unlistedByte := by
  induction l generalizing lo with
  | nil => rfl
  | cons p rest ih =>
    obtain ⟨c, e⟩ := p
    obtain ⟨hlo, -, -, hrest⟩ := canonicalCells_cons.1 hl
    rw [lookupCell, if_neg (by omega)]
    exact ih hrest (by omega)

theorem lookupCell_head_ne (hl : canonicalCells lo hi ((a, b) :: l) = true) :
    lookupCell a ((a, b) :: l) ≠ Config.unlistedByte := by
  obtain ⟨-, -, hb, -⟩ := canonicalCells_cons.1 hl
  rwa [lookupCell, if_pos rfl]

/-- Below `lo'` the list `l'` reads as unlisted, and a first cell does not, so a first cell both agree on is not below `lo'`. -/
theorem le_of_lookupCell_head_eq (hl : canonicalCells lo hi ((a, b) :: l) = true) (hl' : canonicalCells lo' hi' l' = true)
    (heq : lookupCell a ((a, b) :: l) = lookupCell a l') : lo' ≤ a := by
  by_contra hlt
  exact lookupCell_head_ne hl (heq.trans (lookupCell_of_lt hl' (by omega)))

theorem canonicalCells_ext (hl : canonicalCells lo hi l = true) (hl' : canonicalCells lo' hi' l' = true)
    (heq : ∀ c, lookupCell c l = lookupCell c l') : l = l' := by
  induction l generalizing lo lo' l' with
  | nil =>
    cases l' with
    | nil => rfl
    | cons p' rest' => exact absurd (heq p'.1).symm (lookupCell_head_ne hl')
  | cons p rest ih =>
    cases l' with
    | nil => exact absurd (heq p.1) (lookupCell_head_ne hl)
    | cons p' rest' =>
      obtain ⟨a, b⟩ := p
      obtain ⟨a', b'⟩ := p'
      obtain ⟨-, hhi, hb, hrest⟩ := canonicalCells_cons.1 hl
      obtain ⟨-, hhi', hb', hrest'⟩ := canonicalCells_cons.1 hl'
      have hle : a' ≤ a := le_of_lookupCell_head_eq hl (canonicalCells_cons.2 ⟨le_rfl, hhi', hb', hrest'⟩) (heq a)
      have hge : a ≤ a' := le_of_lookupCell_head_eq hl' (canonicalCells_cons.2 ⟨le_rfl, hhi, hb, hrest⟩) (heq a').symm
      obtain rfl : a = a' := le_antisymm hge hle
      have hbyte : b = b' := by simpa [lookupCell] using heq a
      have hcells : rest = rest' := ih hrest hrest' fun c => by
        by_cases hc : a = c
        · subst hc
          rw [lookupCell_of_lt hrest a.lt_succ_self, lookupCell_of_lt hrest' a.lt_succ_self]
        · simpa [lookupCell, hc] using heq c
      rw [hbyte, hcells]

/-- Settles O51: the two lists of cells are canonical in the same region, and such lists with equal bytes are equal. -/
theorem canonicalMemoriesWithEqualBytesAreEqual : Obligations.CanonicalMemoriesWithEqualBytesAreEqual := by
  intro d m m' hm hm' heq
  have hcells : m.cells = m'.cells :=
    canonicalCells_ext (Memory.wfIn_iff.1 hm).2 (Memory.wfIn_iff.1 hm').2 heq
  exact congrArg Memory.mk hcells

end Sys2Proof.Machine
end

section
/-! The boot state has the values of the reset table and the invariant, and the reset state is the boot state of
the chosen parameters (spec/10_state.md R36). -/

namespace Sys2Proof.Machine

variable {base lo hi j k n : Nat} {f : Nat → Byte} {p : Params} {i : RegIdx}

/-! ### The cells of a buffer -/

/-- The listed bytes of a buffer are those of its contents; nothing is listed outside it. -/
theorem lookupCell_cellsOf :
    lookupCell (base + j) (cellsOf base f k n) = if k ≤ j ∧ j < k + n then f j else Config.unlistedByte := by
  induction n generalizing k with
  | zero => rw [if_neg (by omega)]; rfl
  | succ n ih =>
    by_cases hj : k = j
    · subst hj
      rw [if_pos (by omega)]
      by_cases hf : f k = Config.unlistedByte
      · rw [cellsOf, if_pos hf, ih, if_neg (by omega), hf]
      · rw [cellsOf, if_neg hf, lookupCell, if_pos rfl]
    · have hrange : (k + 1 ≤ j ∧ j < k + 1 + n) ↔ (k ≤ j ∧ j < k + (n + 1)) := by omega
      by_cases hf : f k = Config.unlistedByte
      · simp only [cellsOf, if_pos hf, ih, hrange]
      · rw [cellsOf, if_neg hf, lookupCell, if_neg (by omega), ih]
        simp only [hrange]

theorem canonicalCells_cellsOf (hlo : lo ≤ base + k) (hhi : base + k + n ≤ hi) :
    canonicalCells lo hi (cellsOf base f k n) = true := by
  induction n generalizing k lo with
  | zero => rfl
  | succ n ih =>
    by_cases hf : f k = Config.unlistedByte
    · rw [cellsOf, if_pos hf]
      exact ih (by omega) (by omega)
    · rw [cellsOf, if_neg hf, canonicalCells_cons]
      exact ⟨hlo, by omega, hf, ih (by omega) (by omega)⟩

/-- A buffer of unlisted bytes lists nothing. -/
theorem cellsOf_unlisted : cellsOf base (fun _ => Config.unlistedByte) k n = [] := by
  induction n generalizing k with
  | zero => rfl
  | succ n ih => rw [cellsOf, if_pos rfl, ih]

/-! ### The boot state -/

@[simp] theorem State.boot_pc : (State.boot p).pc = p.dram.base := rfl

@[simp] theorem State.boot_slot_zero : (State.boot p).x[0] = 0#64 := by simp [State.boot]

theorem State.boot_reg (hi : i ≠ 0#5) : (State.boot p).reg i = p.xregReset i := by
  have hfin : i.toFin ≠ 0 := fun h => hi (BitVec.eq_of_toFin_eq h)
  rw [State.reg_of_ne_zero _ _ hi]
  simpa [State.boot] using fun h => absurd h hfin

theorem State.boot_byteAt (hk : k < p.dram.size) :
    (State.boot p).mem.byteAt (p.dram.base.toNat + k) = p.memInit k :=
  lookupCell_cellsOf.trans (if_pos (by omega))

theorem State.boot_mem_wf (hp : p.dram.Ok) : (State.boot p).mem.wfIn p.dram = true :=
  Memory.wfIn_iff.2 ⟨hp, canonicalCells_cellsOf le_rfl le_rfl⟩

theorem State.boot_inv (hp : p.dram.Ok) : (State.boot p).Inv p.dram :=
  ⟨State.boot_slot_zero, hp.1, State.boot_mem_wf hp⟩

/-- Settles O18: the rows of the table, one fact about the boot state each. -/
theorem bootStateIsAsTheResetTableSays : Obligations.BootStateIsAsTheResetTableSays := fun _ =>
  ⟨State.boot_pc, State.reg_zero _, fun _ => State.boot_reg, fun _ => State.boot_byteAt⟩

/-! ### The reset state -/

theorem Config.dram_ok : Config.dram.Ok := by decide

theorem State.reset_eq_boot : State.reset = State.boot Config.params := by
  have hx : State.reset.x = (State.boot Config.params).x := by
    ext i hi
    simp [State.reset, State.boot, Config.params, Config.xregReset]
  have hmem : State.reset.mem = (State.boot Config.params).mem := congrArg Memory.mk cellsOf_unlisted.symm
  exact (State.mk.injEq ..).mpr ⟨hx, rfl, hmem⟩

/-- Settles O19: every register of the chosen parameters is 0 and their contents list no byte, as in the reset state. -/
theorem resetIsBootOfTheChosenParameters : Obligations.ResetIsBootOfTheChosenParameters :=
  ⟨State.reset_eq_boot, rfl, Config.dram_ok⟩

/-- Settles O17: the boot state of legal parameters has the invariant, and the reset state is the boot state of the chosen
ones. -/
theorem resetStateMeetsTheInvariant : Obligations.ResetStateMeetsTheInvariant := by
  refine ⟨?_, fun p hp => State.boot_inv hp⟩
  rw [State.reset_eq_boot]
  exact State.boot_inv Config.dram_ok

end Sys2Proof.Machine
end

section
/-! Reads inside other reads and reads after writes, in arithmetic: an in-range read holds the reads of its parts, and a
write is read back (spec/20_memory.md R48, R49, R52, R55, R58). -/

namespace Sys2Proof.Machine

variable {d : Dram} {m m' : Memory} {a b v : Word} {n k : Width}

/-! ### The value of a range of bytes -/

/-- The first `k` bytes of a value are its low ones. -/
theorem leValue_mod (m : Memory) (a k j : Nat) : leValue m a (k + j) % 256 ^ k = leValue m a k := by
  induction k generalizing a with
  | zero => simp [leValue, Nat.mod_one]
  | succ k ih =>
    have hb : (m.byteAt a).toNat < 256 := (m.byteAt a).isLt
    rw [Nat.succ_add, Nat.pow_succ', Nat.mod_mul, leValue, leValue, Nat.add_mul_mod_self_left, Nat.mod_eq_of_lt hb,
      Nat.add_mul_div_left _ _ (by decide), Nat.div_eq_of_lt hb, Nat.zero_add, ih]

/-- Leaving out the first `i` bytes of a value shifts it down by them. -/
theorem leValue_div (m : Memory) (a i n : Nat) : leValue m a (i + n) / 256 ^ i = leValue m (a + i) n := by
  induction i generalizing a with
  | zero => simp
  | succ i ih =>
    have hb : (m.byteAt a).toNat < 256 := (m.byteAt a).isLt
    rw [Nat.succ_add, Nat.pow_succ', ← Nat.div_div_eq_div_mul, leValue, Nat.add_mul_div_left _ _ (by decide),
      Nat.div_eq_of_lt hb, Nat.zero_add, ih, Nat.add_assoc, Nat.add_comm 1]

/-- A range of bytes inside another is a slice of its value. -/
theorem leValue_slice (m : Memory) (a : Nat) {i k n : Nat} (h : i + k ≤ n) :
    leValue m (a + i) k = leValue m a n / 256 ^ i % 256 ^ k := by
  obtain ⟨j, rfl⟩ := Nat.exists_eq_add_of_le h
  rw [Nat.add_assoc, leValue_div, leValue_mod]

/-- The bytes written have the low bytes of the value written (R45). -/
theorem leValue_writeBytes (m : Memory) (a : Nat) (v : Word) (k : Nat) :
    leValue (m.writeBytes a v k) a k = v.toNat % 256 ^ k := by
  induction k generalizing m a v with
  | zero => simp [leValue, Nat.mod_one]
  | succ k ih =>
    have hfirst : ((m.writeBytes a v (k + 1)).byteAt a).toNat = v.toNat % 256 := by
      rw [Memory.byteAt_writeBytes, if_pos (by omega), Nat.sub_self]
      simp
    have hrest : leValue (m.writeBytes a v (k + 1)) (a + 1) k = v.toNat / 256 % 256 ^ k := by
      rw [Memory.writeBytes, ih, BitVec.toNat_ushiftRight, Nat.shiftRight_eq_div_pow]
    rw [leValue, hfirst, hrest, Nat.pow_succ', Nat.mod_mul]

/-! ### Reads of parts -/

/-- Inside an in-range access no address wraps, as DRAM ends at `2^64` at the latest (R11). -/
theorem toNat_add_offset (hd : d.Ok) (ha : inRange d a n = true) {i : Nat} (hi : i < n.bytes) :
    (a + .ofNat 64 i).toNat = a.toNat + i := by
  obtain ⟨-, hend, -⟩ := hd
  obtain ⟨-, hhi⟩ := (inRange_iff ..).1 ha
  rw [BitVec.toNat_add, BitVec.toNat_ofNat]
  omega

/-- An access of any alignment inside an in-range access is in range (R49). -/
theorem inRange_offset (hd : d.Ok) (ha : inRange d a n = true) {i : Nat} (hi : i + k.bytes ≤ n.bytes) :
    inRange d (a + .ofNat 64 i) k = true := by
  have hpos : 0 < k.bytes := Width.bytes_pos k
  rw [inRange_iff, toNat_add_offset hd ha (by omega)]
  obtain ⟨hlo, hhi⟩ := (inRange_iff ..).1 ha
  omega

/-- A successful read has the little-endian value of its bytes (R44). -/
theorem Memory.toNat_of_read (h : m.read d a n = some v) : v.toNat = leValue m a.toNat n.bytes := by
  obtain ⟨-, rfl⟩ := Memory.read_eq_some.1 h
  exact Memory.toNat_readBytes m _ _ (Width.bytes_le n)

theorem Memory.exists_read (h : inRange d a n = true) :
    ∃ r, m.read d a n = some r ∧ r.toNat = leValue m a.toNat n.bytes :=
  have hread := Memory.read_eq_some.2 ⟨h, rfl⟩
  ⟨_, hread, Memory.toNat_of_read hread⟩

/-- A read inside a successful read succeeds and gives a slice of its value (R48, R49). -/
theorem Memory.read_slice (hd : d.Ok) (h : m.read d a n = some v) {i : Nat} (hi : i + k.bytes ≤ n.bytes) :
    ∃ r, m.read d (a + .ofNat 64 i) k = some r ∧ r.toNat = v.toNat / 256 ^ i % 256 ^ k.bytes := by
  obtain ⟨ha, -⟩ := Memory.read_eq_some.1 h
  have hpos : 0 < k.bytes := Width.bytes_pos k
  obtain ⟨r, hread, hr⟩ := Memory.exists_read (m := m) (inRange_offset hd ha hi)
  refine ⟨r, hread, ?_⟩
  rw [hr, Memory.toNat_of_read h, toNat_add_offset hd ha (by omega), leValue_slice m _ hi]

theorem Memory.read_ne_none : m.read d a n ≠ none ↔ inRange d a n = true := by
  rw [ne_eq, Memory.read_eq_none, Bool.not_eq_false]

/-- Settles O48: the single bytes are the slices of one byte, and only the range check can fail. -/
theorem unalignedReadsAreTheirSingleByteReads : Obligations.UnalignedReadsAreTheirSingleByteReads := by
  intro d m a n hd
  refine ⟨Memory.read_ne_none, fun v hread => ⟨?_, fun k hk => Memory.read_slice (k := .byte) hd hread hk⟩⟩
  rw [Memory.toNat_of_read hread]
  exact leValue_lt ..

/-! ### Reads after writes -/

/-- A write is read back (R52). -/
theorem Memory.read_write_same (h : m.write d a n v = some m') :
    ∃ r, m'.read d a n = some r ∧ r.toNat = v.toNat % 256 ^ n.bytes := by
  obtain ⟨ha, rfl⟩ := Memory.write_eq_some.1 h
  obtain ⟨r, hread, hr⟩ := Memory.exists_read ha
  exact ⟨r, hread, hr.trans (leValue_writeBytes ..)⟩

/-- A read that shares no byte with a write does not see it (R55). -/
theorem Memory.read_write_disjoint (h : m.write d a n v = some m')
    (hdisj : b.toNat + k.bytes ≤ a.toNat ∨ a.toNat + n.bytes ≤ b.toNat) : m'.read d b k = m.read d b k := by
  obtain ⟨-, rfl⟩ := Memory.write_eq_some.1 h
  have hbytes : (m.writeBytes a.toNat v n.bytes).readBytes b.toNat k.bytes = m.readBytes b.toNat k.bytes :=
    Memory.readBytes_congr fun j hj => by rw [Memory.byteAt_writeBytes, if_neg (by omega)]
  rw [Memory.read, Memory.read, hbytes]

/-- Settles O49: the read-back rule and the frame rule of a write. -/
theorem readsReturnTheLastValueWritten : Obligations.ReadsReturnTheLastValueWritten :=
  fun _ _ _ _ _ _ hwrite => ⟨Memory.read_write_same hwrite, fun _ _ hdisj => Memory.read_write_disjoint hwrite hdisj⟩

/-- After a write of 8 bytes, the `i`-th read of a width inside them gives the `i`-th slice of that width (R48). -/
theorem Memory.read_slice_of_write_double (hd : d.Ok) (h : m.write d a .double v = some m') {i : Nat}
    (hi : k.bytes * i + k.bytes ≤ 8) :
    ∃ r, m'.read d (a + .ofNat 64 (k.bytes * i)) k = some r ∧
      r.toNat = v.toNat / 2 ^ (8 * k.bytes * i) % 2 ^ (8 * k.bytes) := by
  obtain ⟨w, hread, hw⟩ := Memory.read_write_same h
  have hwv : w.toNat = v.toNat := hw.trans (Nat.mod_eq_of_lt v.isLt)
  have hpow (j : Nat) : 2 ^ (8 * j) = 256 ^ j := Nat.pow_mul 2 8 j
  rw [← hwv, Nat.mul_assoc, hpow, hpow]
  exact Memory.read_slice hd hread hi

/-- Settles O47: the slices of one, two and four bytes. -/
theorem mixedWidthAccessesSeeTheStoredBytes : Obligations.MixedWidthAccessesSeeTheStoredBytes := by
  intro d m m' a v hd hwrite
  refine ⟨fun i hi => ?byte, fun i hi => ?half, fun i hi => ?word⟩
  case byte =>
    have hslice := Memory.read_slice_of_write_double (k := .byte) (i := i) hd hwrite (by simp only [Width.bytes]; omega)
    rwa [Width.bytes, Nat.one_mul] at hslice
  case half => exact Memory.read_slice_of_write_double (k := .half) hd hwrite (by simp only [Width.bytes]; omega)
  case word => exact Memory.read_slice_of_write_double (k := .word) hd hwrite (by simp only [Width.bytes]; omega)

/-- The fetch is the low word of a 4-byte read at pc (R46). -/
theorem State.fetchedWord_of_read {s : State} (h : s.mem.read d s.pc .word = some v) :
    s.fetchedWord d = some (v.setWidth 32) := by
  rw [State.fetchedWord, h, Option.map_some]

/-- The address of the next instruction, as the claims write it. -/
theorem offsetBy_four (s : State) : Claims.offsetBy s.pc 4 = s.nextPc := by
  rw [Claims.offsetBy, BitVec.ofInt_add, BitVec.ofInt_toInt]; rfl

/-- Settles O50: SW moves pc to the address it wrote at, where the word is read back. -/
theorem aStoreIsSeenByTheNextFetch : Obligations.AStoreIsSeenByTheNextFetch := by
  refine atEveryDram_of_forall fun d s t rs1 rs2 imm hexec haddr => ?_
  obtain ⟨hr, rfl⟩ := store_eq_next.1 hexec
  rw [haddr, offsetBy_four] at hr ⊢
  obtain ⟨v, hread, hv⟩ := Memory.read_write_same (Memory.write_eq_some.2 ⟨hr, rfl⟩)
  have hlow : (v.setWidth 32).toNat = (s.reg rs2).toNat % 2 ^ 32 := by
    rw [BitVec.toNat_setWidth, hv]
    exact Nat.mod_mod _ _
  exact ⟨_, State.fetchedWord_of_read hread, hlow⟩

end Sys2Proof.Machine
end

section
/-! `DRAM_BASE` and `DRAM_SIZE` reach a step only through `inRange` (spec/00_scope.md R11; log entries 1 and 14): two DRAMs
whose range checks agree read and write alike, so fetch, load and store alike. -/

namespace Sys2Proof.Machine

variable {d d' : Dram} {m : Memory} {s : State} {i : Instr} {a v : Word} {n : Width}

theorem Memory.read_congr (h : inRange d a n = inRange d' a n) : m.read d a n = m.read d' a n := by
  rw [Memory.read, Memory.read, h]

theorem Memory.write_congr (h : inRange d a n = inRange d' a n) : m.write d a n v = m.write d' a n v := by
  rw [Memory.write, Memory.write, h]

theorem State.fetchedWord_congr (h : inRange d s.pc .word = inRange d' s.pc .word) :
    s.fetchedWord d = s.fetchedWord d' := by
  rw [State.fetchedWord, State.fetchedWord, Memory.read_congr h]

/-- The trap record holds the word fetched and nothing else of the DRAM (R203). -/
theorem raiseMemoryFault_congr (hf : s.fetchedWord d = s.fetchedWord d') :
    raiseMemoryFault d a n s = raiseMemoryFault d' a n s := by
  rw [raiseMemoryFault, raiseMemoryFault, hf]

section Access

variable {extend : Word → Word} {rd rs1 rs2 : RegIdx} {imm : BitVec 12}

theorem load_congr (hf : s.fetchedWord d = s.fetchedWord d')
    (hr : inRange d (loadAddress rs1 imm s) n = inRange d' (loadAddress rs1 imm s) n) :
    load d n extend rd rs1 imm s = load d' n extend rd rs1 imm s := by
  rw [load, load, Memory.read_congr hr, raiseMemoryFault_congr hf]

theorem store_congr (hf : s.fetchedWord d = s.fetchedWord d')
    (hr : inRange d (storeAddress rs1 imm s) n = inRange d' (storeAddress rs1 imm s) n) :
    store d n rs1 rs2 imm s = store d' n rs1 rs2 imm s := by
  rw [store, store, Memory.write_congr hr, raiseMemoryFault_congr hf]

end Access

/-- Without a data access no operation takes the DRAM. -/
theorem execAt_eq_of_dataAccess_eq_none (h : dataAccess i s = none) : execAt d i s = execAt d' i s := by
  cases i with
  | lb | lh | lw | ld | lbu | lhu | lwu | sb | sh | sw | sd => cases h
  | _ => rfl

theorem execAt_congr (hf : s.fetchedWord d = s.fetchedWord d')
    (hr : ∀ a n, dataAccess i s = some (a, n) → inRange d a n = inRange d' a n) : execAt d i s = execAt d' i s := by
  cases i with
  | lb | lh | lw | ld | lbu | lhu | lwu => exact load_congr hf (hr _ _ rfl)
  | sb | sh | sw | sd => exact store_congr hf (hr _ _ rfl)
  | _ => rfl

theorem stepAt_congr (hpc : inRange d s.pc .word = inRange d' s.pc .word)
    (hr : ∀ w i a n, s.fetchedWord d = some w → decode w = .ok i → dataAccess i s = some (a, n) →
      inRange d a n = inRange d' a n) : stepAt d s = stepAt d' s := by
  have hf : s.fetchedWord d = s.fetchedWord d' := State.fetchedWord_congr hpc
  unfold stepAt
  rw [← hf]
  cases hw : s.fetchedWord d with
  | none => exact raiseMemoryFault_congr hf
  | some w =>
    cases hdec : decode w with
    | error e => simp only [hdec]
    | ok i => simpa only [hdec] using execAt_congr hf fun a n => hr w i a n hw hdec

/-- Settles O52: `exec` and `step` are the machine at the chosen DRAM, an instruction without an access does not look at it,
and a step looks at it through the range checks of its fetch and its access. -/
theorem parametersReachAStepOnlyByRangeChecks : Obligations.ParametersReachAStepOnlyByRangeChecks := by
  refine ⟨exec_eq_execAt, step_eq_stepAt, fun d i s h => ?_, fun d d' s => stepAt_congr⟩
  rw [exec_eq_execAt]
  exact execAt_eq_of_dataAccess_eq_none h

end Sys2Proof.Machine
end

section
/-! Every word is its own fields put together, format by format (spec/30_encoding.md R71, R72), so encoding what the decoder
read gives the word again; only the 64-bit shift immediates need the word to be canonical (R87, R90). -/

open Sys2Proof.Claims

namespace Sys2Proof

variable {w : InstWord} {i : Instr} {f3 : BitVec 3} {f7 op : BitVec 7}

/-! ### A word from its fields -/

/-- `inst[31:26]`, the bits above a 6-bit shift amount (R87). -/
def funct6Of (w : InstWord) : BitVec 6 := w.extractLsb' 26 6

theorem getLsbD_funct6Of (w : InstWord) : (funct6Of w).getLsbD 4 = w.getLsbD 30 := by simp [funct6Of]

theorem place_funct6Of_or_shamt6Of (w : InstWord) : place 6 (funct6Of w) ||| place 0 (shamt6Of w) = immIOf w := by
  simp only [funct6Of, shamt6Of, immIOf]; ext j hj; simp [getElem_place]; grind

theorem place_funct7Of_or_shamt5Of (w : InstWord) : place 5 (funct7Of w) ||| place 0 (shamt5Of w) = immIOf w := by
  simp only [funct7Of, shamt5Of, immIOf]; ext j hj; simp [getElem_place]; grind

theorem place_fence_fields (w : InstWord) :
    place 8 (w.extractLsb' 28 4) ||| place 4 (w.extractLsb' 24 4) ||| place 0 (w.extractLsb' 20 4) = immIOf w := by
  simp only [immIOf]; ext j hj; simp [getElem_place]; grind

theorem encodeR_fields (h7 : funct7Of w = f7) (h3 : funct3Of w = f3) (hop : opcodeOf w = op) :
    encodeR f7 (rs2Of w) (rs1Of w) f3 (rdOf w) op = w := by
  subst h7 h3 hop
  simp only [encodeR, funct7Of, rs2Of, rs1Of, funct3Of, rdOf, opcodeOf]; ext j hj; simp [getElem_place]; grind

theorem encodeI_fields (h3 : funct3Of w = f3) (hop : opcodeOf w = op) :
    encodeI (immIOf w) (rs1Of w) f3 (rdOf w) op = w := by
  subst h3 hop
  simp only [encodeI, immIOf, rs1Of, funct3Of, rdOf, opcodeOf]; ext j hj; simp [getElem_place]; grind

theorem encodeS_fields (h3 : funct3Of w = f3) (hop : opcodeOf w = op) :
    encodeS (immSOf w) (rs2Of w) (rs1Of w) f3 op = w := by
  subst h3 hop
  simp only [encodeS, immSOf, rs2Of, rs1Of, funct3Of, opcodeOf]; ext j hj; simp [getElem_place, getLsbD_place]; grind

theorem encodeB_fields (h3 : funct3Of w = f3) (hop : opcodeOf w = op) :
    encodeB (immBOf w) (rs2Of w) (rs1Of w) f3 op = w := by
  subst h3 hop
  simp only [encodeB, immBOf, rs2Of, rs1Of, funct3Of, opcodeOf]; ext j hj; simp [getElem_place, getLsbD_place]
  interval_cases j <;> simp

theorem encodeU_fields (hop : opcodeOf w = op) : encodeU (immUOf w) (rdOf w) op = w := by
  subst hop
  simp only [encodeU, immUOf, rdOf, opcodeOf]; ext j hj; simp [getElem_place]; grind

theorem encodeJ_fields (hop : opcodeOf w = op) : encodeJ (immJOf w) (rdOf w) op = w := by
  subst hop
  simp only [encodeJ, immJOf, rdOf, opcodeOf]; ext j hj; simp [getElem_place, getLsbD_place]
  interval_cases j <;> simp

theorem encodeI_shamt6 {f6 : BitVec 6} (h6 : funct6Of w = f6) (h3 : funct3Of w = f3) (hop : opcodeOf w = op) :
    encodeI (place 6 f6 ||| place 0 (shamt6Of w)) (rs1Of w) f3 (rdOf w) op = w := by
  rw [← h6, place_funct6Of_or_shamt6Of, encodeI_fields h3 hop]

theorem encodeI_shamt5 (h7 : funct7Of w = f7) (h3 : funct3Of w = f3) (hop : opcodeOf w = op) :
    encodeI (place 5 f7 ||| place 0 (shamt5Of w)) (rs1Of w) f3 (rdOf w) op = w := by
  rw [← h7, place_funct7Of_or_shamt5Of, encodeI_fields h3 hop]

/-! ### The canonical shift immediates -/

/-- A claim about a slice is one about the field of the decoder (R17). -/
theorem slice_eq_iff (w : InstWord) (lo n v : Nat) (hv : v < 2 ^ (n + 1)) :
    slice w (lo + n) lo = v ↔ w.extractLsb' lo (n + 1) = BitVec.ofNat (n + 1) v := by
  rw [← BitVec.toNat_inj, BitVec.toNat_ofNat, Nat.mod_eq_of_lt hv, BitVec.extractLsb'_toNat, Nat.shiftRight_eq_div_pow, slice,
    Nat.add_sub_cancel_left]

theorem canonicalWord_iff : CanonicalWord w ↔ (opcodeOf w = 0b0010011#7 →
    (funct3Of w = 0b001#3 → funct6Of w = 0b000000#6) ∧
    (funct3Of w = 0b101#3 → funct6Of w = 0b000000#6 ∨ funct6Of w = 0b010000#6)) := by
  have hop : slice w 6 0 = 0x13 ↔ opcodeOf w = 0b0010011#7 := slice_eq_iff w 0 6 0x13 (by decide)
  have h1 : slice w 14 12 = 1 ↔ funct3Of w = 0b001#3 := slice_eq_iff w 12 2 1 (by decide)
  have h5 : slice w 14 12 = 5 ↔ funct3Of w = 0b101#3 := slice_eq_iff w 12 2 5 (by decide)
  have h0 : slice w 31 26 = 0 ↔ funct6Of w = 0b000000#6 := slice_eq_iff w 26 5 0 (by decide)
  have h16 : slice w 31 26 = 16 ↔ funct6Of w = 0b010000#6 := slice_eq_iff w 26 5 16 (by decide)
  rw [CanonicalWord, hop, h1, h5, h0, h16]

/-- The bits above the amount of a canonical SRLI or SRAI are what `inst[30]` says. -/
theorem funct6Of_of_canonical_right_shift (hc : CanonicalWord w) (hop : opcodeOf w = 0b0010011#7)
    (h3 : funct3Of w = 0b101#3) : funct6Of w = if w.getLsbD 30 = false then 0b000000#6 else 0b010000#6 := by
  rw [← getLsbD_funct6Of]
  obtain h | h := (canonicalWord_iff.1 hc hop).2 h3 <;> rw [h] <;> rfl

/-! ### Encoding what the decoder read, opcode by opcode (R83) -/

theorem encode_of_decodeBranch (hop : opcodeOf w = 0b1100011#7) (h : decodeBranch w = .ok i) : encode i = w := by
  simp only [decodeBranch] at h
  split_ifs at h <;> cases h <;> exact encodeB_fields ‹_› hop

theorem encode_of_decodeLoad (hop : opcodeOf w = 0b0000011#7) (h : decodeLoad w = .ok i) : encode i = w := by
  simp only [decodeLoad] at h
  split_ifs at h <;> cases h <;> exact encodeI_fields ‹_› hop

theorem encode_of_decodeStore (hop : opcodeOf w = 0b0100011#7) (h : decodeStore w = .ok i) : encode i = w := by
  simp only [decodeStore] at h
  split_ifs at h <;> cases h <;> exact encodeS_fields ‹_› hop

theorem encode_decodeOpImm (hc : CanonicalWord w) (hop : opcodeOf w = 0b0010011#7) : encode (decodeOpImm w) = w := by
  simp only [decodeOpImm]
  split_ifs with h0 h2 h3 h4 h6 h7 h1 h30
  · exact encodeI_fields h0 hop
  · exact encodeI_fields h2 hop
  · exact encodeI_fields h3 hop
  · exact encodeI_fields h4 hop
  · exact encodeI_fields h6 hop
  · exact encodeI_fields h7 hop
  · exact encodeI_shamt6 ((canonicalWord_iff.1 hc hop).1 h1) h1 hop
  · have h5 : funct3Of w = 0b101#3 := by bv_omega
    exact encodeI_shamt6 ((funct6Of_of_canonical_right_shift hc hop h5).trans (if_pos h30)) h5 hop
  · have h5 : funct3Of w = 0b101#3 := by bv_omega
    exact encodeI_shamt6 ((funct6Of_of_canonical_right_shift hc hop h5).trans (if_neg h30)) h5 hop

theorem encode_of_decodeOp (hop : opcodeOf w = 0b0110011#7) (h : decodeOp w = .ok i) : encode i = w := by
  simp only [decodeOp] at h
  split_ifs at h with hf7 h0 h1 h2 h3 h4 h5 h6 <;> cases h
  case neg.refl =>
    have h7 : funct3Of w = 0b111#3 := by bv_omega
    exact encodeR_fields hf7 h7 hop
  all_goals exact encodeR_fields ‹_› ‹_› hop

theorem encode_of_decodeMiscMem (hop : opcodeOf w = 0b0001111#7) (h : decodeMiscMem w = .ok i) : encode i = w := by
  simp only [decodeMiscMem] at h
  split_ifs at h with h3
  cases h
  rw [encode, place_fence_fields, encodeI_fields h3 hop]

theorem encode_of_decodeOpImm32 (hop : opcodeOf w = 0b0011011#7) (h : decodeOpImm32 w = .ok i) : encode i = w := by
  simp only [decodeOpImm32] at h
  split_ifs at h with h0 h1 h7 h5 h7 h7' <;> cases h
  · exact encodeI_fields h0 hop
  · exact encodeI_shamt5 h7 h1 hop
  · exact encodeI_shamt5 h7 h5 hop
  · exact encodeI_shamt5 h7' h5 hop

theorem encode_of_decodeOp32 (hop : opcodeOf w = 0b0111011#7) (h : decodeOp32 w = .ok i) : encode i = w := by
  simp only [decodeOp32] at h
  split_ifs at h <;> cases h <;> exact encodeR_fields ‹_› ‹_› hop

/-- A choice of two decoders is undone by the encoder when both are, the first where its test holds. -/
theorem encode_of_ite {c : Prop} [Decidable c] {x y : Except Reject Instr} (hx : c → x = .ok i → encode i = w)
    (hy : y = .ok i → encode i = w) (h : (if c then x else y) = .ok i) : encode i = w := by
  by_cases hc : c
  · rw [if_pos hc] at h; exact hx hc h
  · rw [if_neg hc] at h; exact hy h

/-- One case for each major opcode, in the decoder's order (R83). -/
theorem encode_of_decode (hc : CanonicalWord w) : decode w = .ok i → encode i = w := by
  refine encode_of_ite ?lui <| encode_of_ite ?auipc <| encode_of_ite ?jal <|
    encode_of_ite ?jalr <| encode_of_ite encode_of_decodeBranch <|
    encode_of_ite encode_of_decodeLoad <| encode_of_ite encode_of_decodeStore <| encode_of_ite ?opImm <|
    encode_of_ite encode_of_decodeOp <| encode_of_ite encode_of_decodeMiscMem <|
    encode_of_ite encode_of_decodeOpImm32 <| encode_of_ite encode_of_decodeOp32 nofun
  case lui => rintro hop ⟨⟩; exact encodeU_fields hop
  case auipc => rintro hop ⟨⟩; exact encodeU_fields hop
  case jal => rintro hop ⟨⟩; exact encodeJ_fields hop
  case jalr => exact fun hop => encode_of_ite (by rintro h3 ⟨⟩; exact encodeI_fields h3 hop) nofun
  case opImm => rintro hop ⟨⟩; exact encode_decodeOpImm hc hop

/-- Settles O2: the decoder's fields, codes and canonical bits are all the bits of the word, opcode by opcode. -/
theorem encodeOfDecodeIsIdentityOnCanonicalWords : Obligations.EncodeOfDecodeIsIdentityOnCanonicalWords :=
  fun _ _ h hc => encode_of_decode hc h

end Sys2Proof
end

section
/-! No meaning answers a refusal: every operation commits a next state or raises one of the two traps
(spec/30_encoding.md R82; spec/60_exceptions.md R200). -/

namespace Sys2Proof.Machine

variable {d : Dram} {i : Instr} {s : State} {r : Refusal} {n : Width} {imm : BitVec 12} {rd rs1 rs2 : RegIdx}

theorem load_ne_refused {extend : Word → Word} : load d n extend rd rs1 imm s ≠ .refused r := by
  unfold load
  cases s.mem.read d (loadAddress rs1 imm s) n with
  | none => nofun
  | some v => nofun

theorem store_ne_refused : store d n rs1 rs2 imm s ≠ .refused r := by
  unfold store
  cases s.mem.write d (storeAddress rs1 imm s) n (s.reg rs2) with
  | none => nofun
  | some m => nofun

/-- Without an access an instruction commits; with one it is a load or a store. -/
theorem execAt_ne_refused : execAt d i s ≠ .refused r := by
  cases i with
  | lb | lh | lw | ld | lbu | lhu | lwu => exact load_ne_refused
  | sb | sh | sw | sd => exact store_ne_refused
  | _ => nofun

theorem stepAt_ne_refused : stepAt d s ≠ .refused r := by
  unfold stepAt
  cases s.fetchedWord d with
  | none => nofun
  | some w =>
    cases hdec : decode w with
    | error e => simp [hdec, raiseIllegalInstruction]
    | ok i => simpa only [hdec] using execAt_ne_refused

/-- Settles O15: the fetch and the decoder trap where they fail, and no instruction is without a meaning. -/
theorem noStepIsRefused : Obligations.NoStepIsRefused :=
  atEveryDram_of_forall fun _ => ⟨fun _ _ => stepAt_ne_refused, fun _ _ _ => execAt_ne_refused⟩

end Sys2Proof.Machine
end

section
/-! What an instruction that only commits a register leaves behind, and the values the arithmetic and logic family commits
there: comparisons of integers and floor divisions by powers of two (spec/40_arith_logic.md R121 to R124). -/

open Sys2Proof.Claims

namespace Sys2Proof.Machine

variable {s s' t t' : State} {i : Instr} {rd : RegIdx} {v v' : Word}

/-! ### Committing a register -/

/-- All that the commit of a register can answer. -/
theorem commitReg_eq_next : commitReg rd v s = .next t ↔ t = (s.setReg rd v).setPc s.nextPc := by
  simp [commitReg, commitRegPc, eq_comm]

/-- The commit of a register is a whole `RegStep` (R28, R124). -/
theorem regStep_of_commitReg (h : commitReg rd v s = .next t) : RegStep s t rd v := by
  obtain rfl := commitReg_eq_next.1 h
  exact ⟨fun r => State.reg_setReg s rd r v, fun a => by simp, State.toNat_nextPc s⟩

/-- An instruction whose meaning is the commit of a register completes, with the effect of the value committed. -/
theorem completes_of_exec_eq_commitReg (h : exec i s = commitReg rd v s) (hv : v = v') :
    Completes exec i s fun t => RegStep s t rd v' :=
  ⟨_, h, hv ▸ regStep_of_commitReg rfl⟩

/-- The committed register reads the value, unless it is `x0`. -/
theorem reg_of_commitReg (h : commitReg rd v s = .next t) (hrd : rd ≠ 0#5) : t.reg rd = v := by
  rw [(regStep_of_commitReg h).1 rd, if_pos ⟨rfl, hrd⟩]

/-- Commits of one value to one register agree on that register, also when it is `x0`. -/
theorem reg_eq_of_commitReg (hv : v = v') (h : commitReg rd v s = .next t) (h' : commitReg rd v' s' = .next t') :
    t.reg rd = t'.reg rd := by
  by_cases hrd : rd = 0#5
  · subst hrd; rw [State.reg_zero, State.reg_zero]
  · rw [reg_of_commitReg h hrd, reg_of_commitReg h' hrd, hv]

/-! ### Set-if-less-than -/

/-- The 0-or-1 result of a test that decides `p`. -/
theorem setResult_eq_boolWord {c : Bool} {p : Prop} [Decidable p] (h : c = true ↔ p) : setResult c = boolWord p := by
  simp only [setResult, boolWord, h]

theorem setResult_injective : Function.Injective setResult := by decide

theorem toInt_immI (imm : BitVec 12) : (immI imm).toInt = imm.toInt := BitVec.toInt_signExtend_of_le (by decide)

/-- The unsigned reading of a word is its signed one modulo `2^64`. -/
theorem toNat_eq_toInt_emod (a : Word) : (a.toNat : Int) = a.toInt % 2 ^ 64 := by
  have ha : (a.toNat : Int) < 2 ^ 64 := by exact_mod_cast a.isLt
  rw [BitVec.toInt_eq_toNat_bmod]
  exact (Int.bmod_emod.trans (Int.emod_eq_of_lt (by omega) ha)).symm

theorem ltSigned_iff (a b : Word) : ltSigned a b = true ↔ a.toInt < b.toInt := BitVec.slt_iff_toInt_lt

theorem ltUnsigned_iff (a b : Word) : ltUnsigned a b = true ↔ a.toNat < b.toNat := BitVec.ult_iff_toNat_lt

/-- Against an immediate, the signed comparison is with the value of its 12-bit field. -/
theorem ltSigned_immI_iff (a : Word) (imm : BitVec 12) : ltSigned a (immI imm) = true ↔ a.toInt < imm.toInt := by
  rw [ltSigned_iff, toInt_immI]

/-- Against an immediate, the unsigned comparison is with the sign-extended field read as unsigned (R121). -/
theorem ltUnsigned_immI_iff (a : Word) (imm : BitVec 12) :
    ltUnsigned a (immI imm) = true ↔ (a.toNat : Int) < imm.toInt % 2 ^ 64 := by
  rw [ltUnsigned_iff, ← Int.ofNat_lt, toNat_eq_toInt_emod (immI imm), toInt_immI]

/-- The two orders disagree where exactly one operand has its top bit set. -/
theorem ltSigned_ne_ltUnsigned {a b : Word} (h : a.msb ≠ b.msb) : ltSigned a b ≠ ltUnsigned a b := by
  unfold ltSigned ltUnsigned
  rw [BitVec.slt_eq_ult, bne_iff_ne.mpr h, Bool.true_xor]
  exact Bool.not_ne_self _

/-- Settles O28: each of the four commits the 0-or-1 result of its order's test, and SLT and SLTU differ in any register
but `x0` because the tests differ where the top bits do. -/
theorem setLessThanComparesSignedOrUnsigned : Obligations.SetLessThanComparesSignedOrUnsigned := by
  intro s rd rs1 rs2 imm
  refine ⟨completes_of_exec_eq_commitReg rfl (setResult_eq_boolWord (ltSigned_immI_iff ..)),
    completes_of_exec_eq_commitReg rfl (setResult_eq_boolWord (ltUnsigned_immI_iff ..)),
    completes_of_exec_eq_commitReg rfl (setResult_eq_boolWord (ltSigned_iff ..)),
    completes_of_exec_eq_commitReg rfl (setResult_eq_boolWord (ltUnsigned_iff ..)), fun t u hrd hmsb ht hu => ?_⟩
  rw [reg_of_commitReg ht hrd, reg_of_commitReg hu hrd]
  exact setResult_injective.ne (ltSigned_ne_ltUnsigned hmsb)

/-! ### Shifts -/

/-- The amount of a register shift is the register modulo 64 (R122). -/
theorem shiftAmount6_eq (a : Word) : shiftAmount6 a = a.toNat % 64 := BitVec.toNat_setWidth 6 a

/-- The logical right shift is the floor division of the unsigned reading. -/
theorem ushiftRight_eq_ofNat_div (a : Word) (n : Nat) : a >>> n = .ofNat 64 (a.toNat / 2 ^ n) := by
  rw [← Nat.shiftRight_eq_div_pow, ← BitVec.toNat_ushiftRight, BitVec.ofNat_toNat, BitVec.setWidth_eq]

/-- The arithmetic right shift is the floor division of the signed reading (R123). -/
theorem sshiftRight_eq_ofInt_fdiv (a : Word) (n : Nat) : a.sshiftRight n = .ofInt 64 (a.toInt.fdiv (2 ^ n)) := by
  rw [Int.fdiv_eq_ediv_of_nonneg _ (by positivity), BitVec.sshiftRight, Int.shiftRight_eq_div_pow, Nat.cast_pow,
    Nat.cast_ofNat]

/-- Settles O31: each of the four commits its shift, which is a floor division by `2^n`, and a register amount is
`x[rs2] mod 64`. -/
theorem shiftRightDividesByAPowerOfTwo : Obligations.ShiftRightDividesByAPowerOfTwo := by
  intro s rd rs1 rs2 shamt
  rw [← shiftAmount6_eq]
  exact ⟨completes_of_exec_eq_commitReg rfl (ushiftRight_eq_ofNat_div ..),
    completes_of_exec_eq_commitReg rfl (ushiftRight_eq_ofNat_div ..),
    completes_of_exec_eq_commitReg rfl (sshiftRight_eq_ofInt_fdiv ..),
    completes_of_exec_eq_commitReg rfl (sshiftRight_eq_ofInt_fdiv ..)⟩

/-- Settles O32: the three shifts commit a function of `x[rs1]` and the amount, and equal remainders are equal amounts. -/
theorem registerShiftAmountsAreModulo64 : Obligations.RegisterShiftAmountsAreModulo64 := by
  intro s s' t t' rd rs1 rs2 hval hmod
  have hamount : shiftAmount6 (s.reg rs2) = shiftAmount6 (s'.reg rs2) := by
    rw [shiftAmount6_eq, hmod, ← shiftAmount6_eq]
  exact ⟨reg_eq_of_commitReg (by rw [hval, hamount]), reg_eq_of_commitReg (by rw [hval, hamount]),
    reg_eq_of_commitReg (by rw [hval, hamount])⟩

end Sys2Proof.Machine
end

section
/-! The word family computes on the low words of its sources: the value it commits is the sign extension of a function of
them (spec/41_word_ops.md R139). -/

namespace Sys2Proof.Machine

variable {s t : State} {i : Instr} {rd : RegIdx}

/-! ### The low word of an operand, and the value made from a 32-bit result -/

@[simp] theorem lowWord_add (a b : Word) : lowWord (a + b) = lowWord a + lowWord b := BitVec.setWidth_add a b (by decide)

@[simp] theorem lowWord_sub (a b : Word) : lowWord (a - b) = lowWord a - lowWord b := by
  apply BitVec.eq_of_toNat_eq
  simp only [lowWord, BitVec.toNat_setWidth, BitVec.toNat_sub]
  omega

theorem lowWord_eq_iff {a b : Word} : lowWord a = lowWord b ↔ a.toNat % 2 ^ 32 = b.toNat % 2 ^ 32 := by
  rw [← BitVec.toNat_inj, lowWord, lowWord, BitVec.toNat_setWidth, BitVec.toNat_setWidth]

/-- The amount of a word shift lies in the low word of its register (R141). -/
theorem shiftAmount5_eq_lowWord (a : Word) : shiftAmount5 a = ((lowWord a).setWidth 5).toNat := by
  rw [shiftAmount5, lowWord, BitVec.setWidth_setWidth_of_le a (by decide)]

/-- Bit 31 of the 32-bit result fills every bit of the value from 31 up. -/
theorem getLsbD_sextWord (r : BitVec 32) {k : Nat} (hlo : 31 ≤ k) (hhi : k < 64) : (sextWord r).getLsbD k = r.msb := by
  rw [sextWord, BitVec.getLsbD_signExtend, decide_eq_true hhi, Bool.true_and]
  obtain rfl | hlt := hlo.eq_or_lt
  · rfl
  · exact if_neg (by omega)

/-! ### What a word instruction commits -/

/-- A word instruction sees its sources only through a function of their low words, one for each mnemonic. -/
theorem exists_exec_eq_commitReg_sextWord (hw : isWordOp i = true) :
    ∃ (rd : RegIdx) (f : (RegIdx → BitVec 32) → BitVec 32), destOf i = some rd ∧
      ∀ s, exec i s = commitReg rd (sextWord (f fun r => lowWord (s.reg r))) s := by
  cases i with
  | addiw rd rs1 imm =>
    exact ⟨rd, fun x => x rs1 + lowWord (immI imm), rfl, fun s => by rw [exec, execAddiw, lowWord_add]⟩
  | slliw rd rs1 shamt => exact ⟨rd, fun x => x rs1 <<< shamt.toNat, rfl, fun _ => rfl⟩
  | srliw rd rs1 shamt => exact ⟨rd, fun x => x rs1 >>> shamt.toNat, rfl, fun _ => rfl⟩
  | sraiw rd rs1 shamt => exact ⟨rd, fun x => (x rs1).sshiftRight shamt.toNat, rfl, fun _ => rfl⟩
  | addw rd rs1 rs2 => exact ⟨rd, fun x => x rs1 + x rs2, rfl, fun s => by rw [exec, execAddw, lowWord_add]⟩
  | subw rd rs1 rs2 => exact ⟨rd, fun x => x rs1 - x rs2, rfl, fun s => by rw [exec, execSubw, lowWord_sub]⟩
  | sllw rd rs1 rs2 =>
    exact ⟨rd, fun x => x rs1 <<< ((x rs2).setWidth 5).toNat, rfl, fun s => by rw [exec, execSllw, shiftAmount5_eq_lowWord]⟩
  | srlw rd rs1 rs2 =>
    exact ⟨rd, fun x => x rs1 >>> ((x rs2).setWidth 5).toNat, rfl, fun s => by rw [exec, execSrlw, shiftAmount5_eq_lowWord]⟩
  | sraw rd rs1 rs2 =>
    exact ⟨rd, fun x => (x rs1).sshiftRight ((x rs2).setWidth 5).toNat, rfl,
      fun s => by rw [exec, execSraw, shiftAmount5_eq_lowWord]⟩
  | _ => cases hw

/-- The register that a word result is committed to holds copies of bit 31 above it, also when it is `x0`. -/
theorem getLsbD_reg_of_commitReg_sextWord {r : BitVec 32} {k : Nat} (h : commitReg rd (sextWord r) s = .next t)
    (hlo : 32 ≤ k) (hhi : k < 64) : (t.reg rd).getLsbD k = (t.reg rd).getLsbD 31 := by
  by_cases hx0 : rd = 0#5
  · subst hx0; rw [State.reg_zero, BitVec.getLsbD_zero, BitVec.getLsbD_zero]
  · rw [reg_of_commitReg h hx0, getLsbD_sextWord r (by omega) hhi, getLsbD_sextWord r le_rfl (by decide)]

/-- Settles O36: both states commit the same function of the low words, which are equal, and its sign extension. -/
theorem wordResultsIgnoreTheHighHalves : Obligations.WordResultsIgnoreTheHighHalves := by
  intro i s s' t t' rd hw hrd hlow ht ht'
  obtain ⟨rd', f, hrd', hexec⟩ := exists_exec_eq_commitReg_sextWord hw
  obtain rfl : rd = rd' := Option.some.inj (hrd.symm.trans hrd')
  rw [hexec] at ht ht'
  have hregs : (fun r => lowWord (s.reg r)) = fun r => lowWord (s'.reg r) := funext fun r => lowWord_eq_iff.2 (hlow r)
  exact ⟨reg_eq_of_commitReg (by rw [hregs]) ht ht', fun _ => getLsbD_reg_of_commitReg_sextWord ht⟩

end Sys2Proof.Machine
end

section
/-! What a load or store whose access is in range leaves behind, said once for every width and extension
(spec/44_memory_access.md R191 to R193, R195). -/

open Sys2Proof.Claims

namespace Sys2Proof.Machine

variable {d : Dram} {s : State} {i : Instr} {n : Width} {rd rs1 rs2 : RegIdx} {imm : BitVec 12}

/-! ### The effective address and the extensions -/

/-- A sign-extended immediate is added as the signed offset it stands for. -/
theorem add_signExtend_eq_offsetBy {k : Nat} (a : Word) (imm : BitVec k) :
    a + imm.signExtend 64 = offsetBy a imm.toInt := by
  rw [offsetBy, BitVec.ofInt_add, BitVec.ofInt_toInt]; rfl

/-- The address of a load, as the claims write it (R191). -/
theorem loadAddress_eq_offsetBy (rs1 : RegIdx) (imm : BitVec 12) (s : State) :
    loadAddress rs1 imm s = offsetBy (s.reg rs1) imm.toInt := add_signExtend_eq_offsetBy ..

/-- The address of a store, as the claims write it (R191). -/
theorem storeAddress_eq_offsetBy (rs1 : RegIdx) (imm : BitVec 12) (s : State) :
    storeAddress rs1 imm s = offsetBy (s.reg rs1) imm.toInt := add_signExtend_eq_offsetBy ..

/-- Sign extension keeps the two's-complement reading of the low bits (R18). -/
theorem toInt_sextLow {N : Nat} (hN : N ≤ 64) (v : Word) : (sextLow N v).toInt = signedOf N v.toNat := by
  rw [sextLow, BitVec.toInt_signExtend_of_le hN, BitVec.toInt_eq_toNat_bmod, BitVec.toNat_setWidth, Int.natCast_emod,
    signedOf]
  exact Int.emod_bmod ..

/-- Zero extension changes no value that fits in the low bits (R18). -/
theorem toNat_zextLow {N : Nat} {v : Word} (hv : v.toNat < 2 ^ N) : (zextLow N v).toNat = v.toNat := by
  rw [zextLow, BitVec.toNat_setWidth, BitVec.toNat_setWidth, Nat.mod_eq_of_lt hv, Nat.mod_eq_of_lt v.isLt]

/-! ### Loads in range -/

/-- An instruction whose meaning is a load completes when its access is in range: `rd` gets the extension of a word that
has the little-endian value of the bytes read. -/
theorem loadStep_of_inRange {exec : Executor} {extend : Word → Word} {Q : Word → Prop}
    (hexec : exec i s = load d n extend rd rs1 imm s) (hr : inRange d (offsetBy (s.reg rs1) imm.toInt) n = true)
    (hQ : ∀ v : Word, v.toNat = leValue s.mem (offsetBy (s.reg rs1) imm.toInt).toNat n.bytes → Q (extend v)) :
    LoadStep exec i s rd Q := by
  rw [← loadAddress_eq_offsetBy] at hr hQ
  exact ⟨_, hexec.trans (load_eq_next.2 ⟨hr, rfl⟩), _, hQ _ (Memory.toNat_readBytes _ _ _ (Width.bytes_le n)),
    regStep_of_commitReg rfl⟩

/-- A load that sign-extends the bytes it reads, in range. -/
theorem loadStep_sextLow {exec : Executor} (hexec : exec i s = load d n (sextLow (8 * n.bytes)) rd rs1 imm s)
    (hr : inRange d (offsetBy (s.reg rs1) imm.toInt) n = true) :
    LoadStep exec i s rd fun v =>
      v.toInt = signedOf (8 * n.bytes) (leValue s.mem (offsetBy (s.reg rs1) imm.toInt).toNat n.bytes) := by
  have hbits : 8 * n.bytes ≤ 64 := Nat.mul_le_mul_left 8 (Width.bytes_le n)
  exact loadStep_of_inRange hexec hr fun v hv => by rw [toInt_sextLow hbits, hv]

/-- A load that zero-extends the bytes it reads, in range. -/
theorem loadStep_zextLow {exec : Executor} (hexec : exec i s = load d n (zextLow (8 * n.bytes)) rd rs1 imm s)
    (hr : inRange d (offsetBy (s.reg rs1) imm.toInt) n = true) :
    LoadStep exec i s rd fun v => v.toNat = leValue s.mem (offsetBy (s.reg rs1) imm.toInt).toNat n.bytes := by
  refine loadStep_of_inRange hexec hr fun v hv => ?_
  have hfits : v.toNat < 2 ^ (8 * n.bytes) := by
    rw [hv, Nat.pow_mul]
    exact leValue_lt ..
  rw [toNat_zextLow hfits, hv]

/-- Settles O44: LB, LH, LW sign-extend and LBU, LHU, LWU zero-extend what they read at their width, and LD keeps it whole. -/
theorem loadsReadLittleEndianAndExtend : Obligations.LoadsReadLittleEndianAndExtend :=
  atEveryDram_of_forall fun _ _ _ _ _ =>
    ⟨fun hbyte => ⟨loadStep_sextLow rfl hbyte, loadStep_zextLow rfl hbyte⟩,
      fun hhalf => ⟨loadStep_sextLow rfl hhalf, loadStep_zextLow rfl hhalf⟩,
      fun hword => ⟨loadStep_sextLow rfl hword, loadStep_zextLow rfl hword⟩,
      fun hdouble => loadStep_of_inRange (extend := id) rfl hdouble fun _ hv => hv⟩

/-! ### Stores in range -/

/-- A write sets the addressed bytes to the low bytes of the value and no other byte (R45). -/
theorem writesBytes_writeBytes {t : State} {addr v : Word} (ht : t.mem = s.mem.writeBytes addr.toNat v n.bytes) :
    WritesBytes s t addr n v := by
  refine ⟨fun k hk => ?_, fun a ha => ?_⟩
  · rw [ht, Memory.byteAt_writeBytes, if_pos (by omega), Nat.add_sub_cancel_left, BitVec.toNat_setWidth,
      BitVec.toNat_ushiftRight, Nat.shiftRight_eq_div_pow, Nat.pow_mul]
  · rw [ht, Memory.byteAt_writeBytes, if_neg (by omega)]

/-- An instruction whose meaning is a store completes when its access is in range, with the whole effect of the write. -/
theorem storeStep_of_inRange {exec : Executor} (hexec : exec i s = store d n rs1 rs2 imm s)
    (hr : inRange d (offsetBy (s.reg rs1) imm.toInt) n = true) :
    StoreStep exec i s (offsetBy (s.reg rs1) imm.toInt) n (s.reg rs2) := by
  rw [← storeAddress_eq_offsetBy] at hr ⊢
  exact ⟨_, hexec.trans (store_eq_next.2 ⟨hr, rfl⟩), fun _ => State.reg_congr rfl, writesBytes_writeBytes rfl,
    (offsetBy_four s).symm⟩

/-- Settles O45: each store is `store` at its width. -/
theorem storesWriteTheLowBytesOnly : Obligations.StoresWriteTheLowBytesOnly :=
  atEveryDram_of_forall fun _ _ _ _ _ =>
    ⟨storeStep_of_inRange rfl, storeStep_of_inRange rfl, storeStep_of_inRange rfl, storeStep_of_inRange rfl⟩

end Sys2Proof.Machine
end

section
/-! Decoding the word of a well-formed instruction gives the instruction back: each format's fields are read where the
encoder places them, so the decoder takes the branch of the row encoded from (spec/30_encoding.md R72, R83, R90). -/

namespace Sys2Proof

variable {i : Instr} {rs1 rd : RegIdx} {f3 : BitVec 3} {op : BitVec 7}

/-! ### The fields inside an I-format immediate -/

/-- The bit that tells SRAI from SRLI (R87). -/
theorem getElem_30_encodeI (f6 shamt : BitVec 6) :
    (encodeI (place 6 f6 ||| place 0 shamt) rs1 f3 rd op)[30] = f6[4] := by
  simp [encodeI, getElem_place]

theorem shamt6Of_encodeI (f6 shamt : BitVec 6) :
    shamt6Of (encodeI (place 6 f6 ||| place 0 shamt) rs1 f3 rd op) = shamt := by
  simp only [shamt6Of, encodeI]; ext j hj; simp [getLsbD_place]; grind

theorem shamt5Of_encodeI (f7 : BitVec 7) (shamt : BitVec 5) :
    shamt5Of (encodeI (place 5 f7 ||| place 0 shamt) rs1 f3 rd op) = shamt := by
  simp only [shamt5Of, encodeI]; ext j hj; simp [getLsbD_place]; grind

theorem funct7Of_encodeI (f7 : BitVec 7) (shamt : BitVec 5) :
    funct7Of (encodeI (place 5 f7 ||| place 0 shamt) rs1 f3 rd op) = f7 := by
  simp only [funct7Of, encodeI]; ext j hj; simp [getLsbD_place]; grind

/-- The three fields of FENCE (R85). -/
theorem fence_fields_encodeI (fm pred succ : BitVec 4) :
    (encodeI (place 8 fm ||| place 4 pred ||| place 0 succ) rs1 f3 rd op).extractLsb' 28 4 = fm ∧
    (encodeI (place 8 fm ||| place 4 pred ||| place 0 succ) rs1 f3 rd op).extractLsb' 24 4 = pred ∧
    (encodeI (place 8 fm ||| place 4 pred ||| place 0 succ) rs1 f3 rd op).extractLsb' 20 4 = succ := by
  simp only [encodeI]
  refine ⟨?_, ?_, ?_⟩ <;> ext j hj <;> simp [getLsbD_place] <;> grind

/-! ### The round trip -/

/-- One case for each major opcode (R83); only the branches and JAL need the immediate to be even (R76, R78). -/
theorem decode_encode (h : i.wellFormed = true) : decode (encode i) = .ok i := by
  cases i with
  | lui | auipc | jalr => simp [encode, decode]
  | jal => simp [encode, decode, immJOf_encodeJ _ _ _ (Bool.eq_false_of_not_eq_true' h)]
  | beq | bne | blt | bge | bltu | bgeu =>
    simp [encode, decode, decodeBranch, immBOf_encodeB _ _ _ _ _ (Bool.eq_false_of_not_eq_true' h)]
  | lb | lh | lw | ld | lbu | lhu | lwu => simp [encode, decode, decodeLoad]
  | sb | sh | sw | sd => simp [encode, decode, decodeStore]
  | addi | slti | sltiu | xori | ori | andi => simp [encode, decode, decodeOpImm]
  | slli | srli | srai => simp [encode, decode, decodeOpImm, getElem_30_encodeI, shamt6Of_encodeI]
  | add | sub | sll | slt | sltu | xor | srl | sra | or | and => simp [encode, decode, decodeOp]
  | fence => simp [encode, decode, decodeMiscMem, fence_fields_encodeI]
  | addiw => simp [encode, decode, decodeOpImm32]
  | slliw | srliw | sraiw => simp [encode, decode, decodeOpImm32, funct7Of_encodeI, shamt5Of_encodeI]
  | addw | subw | sllw | srlw | sraw => simp [encode, decode, decodeOp32]

end Sys2Proof
end

section
/-! A word stored at pc is the word fetched there, and nothing else changes (spec/20_memory.md R45, R46); so a well-formed
instruction placed at pc is the one the next step runs (spec/60_exceptions.md R205). -/

namespace Sys2Proof.Machine

variable {d : Dram} {s : State} {w : InstWord} {i : Instr}

/-- A step adds nothing around the execution of the instruction it decodes (R205). -/
theorem stepAt_of_decode (hw : s.fetchedWord d = some w) (hdec : decode w = .ok i) : stepAt d s = execAt d i s := by
  simp only [stepAt, hw, hdec]

/-- Placing a word is a write of its four bytes at pc, where they can be fetched from. -/
theorem State.placeWord_of_inRange (h : inRange d s.pc .word = true) :
    s.placeWord d w = { s with mem := s.mem.writeBytes s.pc.toNat (w.setWidth 64) Width.word.bytes } := by
  rw [State.placeWord, Memory.write, if_pos h]

/-- The fetch reads back the word that was placed. -/
theorem State.fetchedWord_placeWord (h : inRange d s.pc .word = true) : (s.placeWord d w).fetchedWord d = some w := by
  have hwrite : s.mem.write d s.pc .word (w.setWidth 64) = some _ := Memory.write_eq_some.2 ⟨h, rfl⟩
  obtain ⟨v, hread, hv⟩ := Memory.read_write_same hwrite
  have hw : v.setWidth 32 = w := by
    refine BitVec.eq_of_toNat_eq ?_
    rw [BitVec.toNat_setWidth, hv, BitVec.toNat_setWidth, Width.bytes]
    omega
  rw [State.placeWord_of_inRange h, State.fetchedWord_of_read hread, hw]

/-- A whole word given by its number (R15). -/
theorem tableWord_toNat (w : InstWord) : tableWord 32 w.toNat = w := by
  rw [tableWord, Nat.mod_eq_of_lt w.isLt, BitVec.ofNat_toNat, BitVec.setWidth_eq]

/-- Settles O21: the placed word is fetched, decodes to the instruction it was encoded from, and only its four bytes were
written. -/
theorem anInstructionPlacedAtPcRuns : Obligations.AnInstructionPlacedAtPcRuns := by
  refine ⟨atEveryDram_of_forall fun d s i hi hpc => ?_, fun s i => ?_⟩
  · have hfetch : (s.placeWord d (encode i)).fetchedWord d = some (encode i) := State.fetchedWord_placeWord hpc
    refine ⟨hfetch, stepAt_of_decode hfetch (decode_encode hi), ?_⟩
    rw [State.placeWord_of_inRange hpc]
    exact ⟨fun _ => State.reg_congr rfl, rfl, (writesBytes_writeBytes (n := .word) rfl).2⟩
  · rw [State.withFetchWord, tableWord_toNat]

end Sys2Proof.Machine
end

section
/-! What stops a step: the fetch, the decoder and the range check of a data access, and nothing else
(spec/60_exceptions.md R205, R208; spec/44_memory_access.md R194). -/

namespace Sys2Proof.Machine

variable {d : Dram} {s : State} {i : Instr}

theorem exists_load_eq_next {n : Width} {extend : Word → Word} {rd rs1 : RegIdx} {imm : BitVec 12} :
    (∃ t, load d n extend rd rs1 imm s = .next t) ↔ inRange d (loadAddress rs1 imm s) n = true := by
  simp only [load_eq_next, exists_and_left, exists_eq, and_true]

theorem exists_store_eq_next {n : Width} {rs1 rs2 : RegIdx} {imm : BitVec 12} :
    (∃ t, store d n rs1 rs2 imm s = .next t) ↔ inRange d (storeAddress rs1 imm s) n = true := by
  simp only [store_eq_next, exists_and_left, exists_eq, and_true]

/-- The requirement that a data access be in range, of an instruction whose access is known. -/
theorem forall_access_iff {a : Word} {n : Width} (h : dataAccess i s = some (a, n)) :
    (∀ b k, dataAccess i s = some (b, k) → inRange d b k = true) ↔ inRange d a n = true := by
  simp [h]

/-- An instruction completes exactly when the access it makes, if any, is in range. -/
theorem exists_execAt_eq_next :
    (∃ t, execAt d i s = .next t) ↔ ∀ a n, dataAccess i s = some (a, n) → inRange d a n = true := by
  cases i with
  | lb | lh | lw | ld | lbu | lhu | lwu => exact exists_load_eq_next.trans (forall_access_iff rfl).symm
  | sb | sh | sw | sd => exact exists_store_eq_next.trans (forall_access_iff rfl).symm
  | _ => exact ⟨fun _ _ _ => nofun, fun _ => ⟨_, rfl⟩⟩

/-- Settles O13: a step is a fetch, a decode and an execution, and the fetch gives a word exactly when pc is in range. -/
theorem stepSucceedsExactlyWhenFetchDecodeAndAccessDo :
    Obligations.StepSucceedsExactlyWhenFetchDecodeAndAccessDo := by
  refine atEveryDram_of_forall fun d s => ⟨?_, ?_⟩
  · rintro ⟨t, h⟩
    obtain ⟨w, i, hfetch, hdec, hexec⟩ := stepAt_eq_next.1 h
    exact ⟨(State.fetchedWord_eq_some.1 hfetch).1, w, i, hfetch, hdec, exists_execAt_eq_next.1 ⟨t, hexec⟩⟩
  · rintro ⟨-, w, i, hfetch, hdec, haccess⟩
    rw [stepAt_of_decode hfetch hdec]
    exact exists_execAt_eq_next.2 haccess

end Sys2Proof.Machine
end

section
/-! The encoder emits only canonical words: it puts the codes that R84 gives into the bits above a 64-bit shift amount, and no
other word has a bit that the decoder ignores (spec/30_encoding.md R87, R90). -/

open Sys2Proof.Claims

namespace Sys2Proof

variable {i : Instr} {rs1 rd : RegIdx} {f3 : BitVec 3} {op : BitVec 7}

theorem funct6Of_encodeI (f6 shamt : BitVec 6) :
    funct6Of (encodeI (place 6 f6 ||| place 0 shamt) rs1 f3 rd op) = f6 := by
  simp only [funct6Of, encodeI]; ext j hj; simp [getLsbD_place]; grind

/-- Only the 64-bit shift immediates have the opcode and funct3 that the condition speaks of. -/
theorem canonicalWord_encode (i : Instr) : CanonicalWord (encode i) := by
  rw [canonicalWord_iff]
  cases i with
  | slli | srli | srai => simp [encode, funct6Of_encodeI]
  | _ => simp [encode]

/-- Settles O1: the round trip, and the encoder's canonical codes. -/
theorem decodeOfEncodeIsIdentity : Obligations.DecodeOfEncodeIsIdentity :=
  fun i hi => ⟨decode_encode hi, canonicalWord_encode i⟩

end Sys2Proof
end

section
/-! Each field the decoder reads is a slice of the word, and each immediate has the value of the slices it is put together
from (spec/30_encoding.md R71 to R79). -/

open Sys2Proof.Claims Sys2Proof.Machine

namespace Sys2Proof

variable {w : InstWord} {i : Instr} {n k lo u v : Nat}

/-! ### Fields -/

/-- A field is the slice of its bits (R17). -/
theorem toNat_extractLsb'_eq_slice (w : InstWord) (hi lo : Nat) :
    (w.extractLsb' lo (hi - lo + 1)).toNat = slice w hi lo := by
  rw [BitVec.extractLsb'_toNat, Nat.shiftRight_eq_div_pow, slice]

theorem slice_lt (w : InstWord) (hi lo : Nat) : slice w hi lo < 2 ^ (hi - lo + 1) := Nat.mod_lt _ (Nat.two_pow_pos _)

theorem toNat_opcodeOf (w : InstWord) : (opcodeOf w).toNat = slice w 6 0 := toNat_extractLsb'_eq_slice w 6 0
theorem toNat_rdOf (w : InstWord) : (rdOf w).toNat = slice w 11 7 := toNat_extractLsb'_eq_slice w 11 7
theorem toNat_funct3Of (w : InstWord) : (funct3Of w).toNat = slice w 14 12 := toNat_extractLsb'_eq_slice w 14 12
theorem toNat_rs1Of (w : InstWord) : (rs1Of w).toNat = slice w 19 15 := toNat_extractLsb'_eq_slice w 19 15
theorem toNat_rs2Of (w : InstWord) : (rs2Of w).toNat = slice w 24 20 := toNat_extractLsb'_eq_slice w 24 20
theorem toNat_funct7Of (w : InstWord) : (funct7Of w).toNat = slice w 31 25 := toNat_extractLsb'_eq_slice w 31 25
theorem toNat_shamt6Of (w : InstWord) : (shamt6Of w).toNat = slice w 25 20 := toNat_extractLsb'_eq_slice w 25 20
theorem toNat_shamt5Of (w : InstWord) : (shamt5Of w).toNat = slice w 24 20 := toNat_extractLsb'_eq_slice w 24 20
theorem toNat_immIOf (w : InstWord) : (immIOf w).toNat = slice w 31 20 := toNat_extractLsb'_eq_slice w 31 20
theorem toNat_immUOf (w : InstWord) : (immUOf w).toNat = slice w 31 12 := toNat_extractLsb'_eq_slice w 31 12

/-! ### Immediates made of several slices -/

theorem toNat_place {f : BitVec n} (hk : lo + n ≤ k) (hf : f.toNat = u) : (place lo f : BitVec k).toNat = u * 2 ^ lo := by
  subst hf
  have hlt : f.toNat * 2 ^ lo < 2 ^ k :=
    calc f.toNat * 2 ^ lo < 2 ^ n * 2 ^ lo := Nat.mul_lt_mul_of_pos_right f.isLt (Nat.two_pow_pos lo)
      _ = 2 ^ (lo + n) := by rw [Nat.mul_comm, Nat.pow_add]
      _ ≤ 2 ^ k := Nat.pow_le_pow_right (by decide) hk
  have hf : f.toNat < 2 ^ k := (Nat.le_mul_of_pos_right _ (Nat.two_pow_pos lo)).trans_lt hlt
  rw [place, BitVec.toNat_shiftLeft, BitVec.toNat_setWidth, Nat.mod_eq_of_lt hf, Nat.shiftLeft_eq, Nat.mod_eq_of_lt hlt]

/-- A field placed above the bits of a smaller number is added to it. -/
theorem toNat_place_or {f : BitVec n} {x : BitVec k} (hk : lo + n ≤ k) (hf : f.toNat = u) (hx : x.toNat = v)
    (hv : v < 2 ^ lo) : (place lo f ||| x).toNat = u * 2 ^ lo + v := by
  rw [BitVec.toNat_or, toNat_place hk hf, hx, Nat.mul_comm, ← Nat.two_pow_add_eq_or_of_lt hv]

theorem toNat_immSOf (w : InstWord) : (immSOf w).toNat = slice w 31 25 * 2 ^ 5 + slice w 11 7 :=
  toNat_place_or (by decide) (toNat_funct7Of w)
    ((toNat_place (by decide) (toNat_rdOf w)).trans (Nat.mul_one _)) (slice_lt w 11 7)

theorem toNat_immBOf (w : InstWord) : (immBOf w).toNat =
    slice w 31 31 * 2 ^ 12 + slice w 7 7 * 2 ^ 11 + slice w 30 25 * 2 ^ 5 + slice w 11 8 * 2 := by
  have h4 : slice w 11 8 < 2 ^ 4 := slice_lt w 11 8
  have h6 : slice w 30 25 < 2 ^ 6 := slice_lt w 30 25
  have h1 : slice w 7 7 < 2 ^ 1 := slice_lt w 7 7
  rw [immBOf, BitVec.or_assoc, BitVec.or_assoc, Nat.add_assoc, Nat.add_assoc]
  exact toNat_place_or (by decide) (toNat_extractLsb'_eq_slice w 31 31)
    (toNat_place_or (by decide) (toNat_extractLsb'_eq_slice w 7 7)
      (toNat_place_or (by decide) (toNat_extractLsb'_eq_slice w 30 25)
        (toNat_place (by decide) (toNat_extractLsb'_eq_slice w 11 8)) (by omega)) (by omega)) (by omega)

theorem toNat_immJOf (w : InstWord) : (immJOf w).toNat =
    slice w 31 31 * 2 ^ 20 + slice w 19 12 * 2 ^ 12 + slice w 20 20 * 2 ^ 11 + slice w 30 21 * 2 := by
  have h10 : slice w 30 21 < 2 ^ 10 := slice_lt w 30 21
  have h1 : slice w 20 20 < 2 ^ 1 := slice_lt w 20 20
  have h8 : slice w 19 12 < 2 ^ 8 := slice_lt w 19 12
  rw [immJOf, BitVec.or_assoc, BitVec.or_assoc, Nat.add_assoc, Nat.add_assoc]
  exact toNat_place_or (by decide) (toNat_extractLsb'_eq_slice w 31 31)
    (toNat_place_or (by decide) (toNat_extractLsb'_eq_slice w 19 12)
      (toNat_place_or (by decide) (toNat_extractLsb'_eq_slice w 20 20)
        (toNat_place (by decide) (toNat_extractLsb'_eq_slice w 30 21)) (by omega)) (by omega)) (by omega)

/-! ### The fields of a decoded word, format by format -/

/-- The 64-bit value of an immediate is the signed reading of its encoded bits. -/
theorem toInt_signExtend_eq_signedOf {imm : BitVec n} (hn : n ≤ 64) (h : imm.toNat = v) :
    (imm.signExtend 64).toInt = signedOf n v := by
  rw [BitVec.toInt_signExtend_of_le hn, BitVec.toInt_eq_toNat_bmod, h, signedOf]

theorem rFields (w : InstWord) : RFields w (rdOf w) (rs1Of w) (rs2Of w) := ⟨toNat_rdOf w, toNat_rs1Of w, toNat_rs2Of w⟩

theorem iFields (w : InstWord) : IFields w (rdOf w) (rs1Of w) (immIOf w) :=
  ⟨toNat_rdOf w, toNat_rs1Of w, toInt_signExtend_eq_signedOf (by decide) (toNat_immIOf w)⟩

theorem shift6Fields (w : InstWord) : Shift6Fields w (rdOf w) (rs1Of w) (shamt6Of w) :=
  ⟨toNat_rdOf w, toNat_rs1Of w, toNat_shamt6Of w⟩

theorem shift5Fields (w : InstWord) : Shift5Fields w (rdOf w) (rs1Of w) (shamt5Of w) :=
  ⟨toNat_rdOf w, toNat_rs1Of w, toNat_shamt5Of w⟩

theorem sFields (w : InstWord) : SFields w (rs1Of w) (rs2Of w) (immSOf w) :=
  ⟨toNat_rs1Of w, toNat_rs2Of w, toInt_signExtend_eq_signedOf (by decide) (toNat_immSOf w)⟩

theorem bFields (w : InstWord) : BFields w (rs1Of w) (rs2Of w) (immBOf w) :=
  ⟨toNat_rs1Of w, toNat_rs2Of w, toInt_signExtend_eq_signedOf (by decide) (toNat_immBOf w)⟩

theorem uFields (w : InstWord) : UFields w (rdOf w) (immUOf w) := by
  have himm : ((immUOf w).setWidth 32 <<< 12).toNat = slice w 31 12 * 2 ^ 12 := toNat_place (by decide) (toNat_immUOf w)
  exact ⟨toNat_rdOf w, toInt_signExtend_eq_signedOf (by decide) himm⟩

theorem jFields (w : InstWord) : JFields w (rdOf w) (immJOf w) :=
  ⟨toNat_rdOf w, toInt_signExtend_eq_signedOf (by decide) (toNat_immJOf w)⟩

theorem fieldsOf_decodeBranch (h : decodeBranch w = .ok i) : FieldsOf w i := by
  simp only [decodeBranch] at h
  split_ifs at h <;> cases h <;> exact bFields w

theorem fieldsOf_decodeLoad (h : decodeLoad w = .ok i) : FieldsOf w i := by
  simp only [decodeLoad] at h
  split_ifs at h <;> cases h <;> exact iFields w

theorem fieldsOf_decodeStore (h : decodeStore w = .ok i) : FieldsOf w i := by
  simp only [decodeStore] at h
  split_ifs at h <;> cases h <;> exact sFields w

theorem fieldsOf_decodeOpImm (w : InstWord) : FieldsOf w (decodeOpImm w) := by
  simp only [decodeOpImm]
  split_ifs
  case pos | pos | pos | pos | pos | pos => exact iFields w
  all_goals exact shift6Fields w

theorem fieldsOf_decodeOp (h : decodeOp w = .ok i) : FieldsOf w i := by
  simp only [decodeOp] at h
  split_ifs at h <;> cases h <;> exact rFields w

theorem fieldsOf_decodeMiscMem (h : decodeMiscMem w = .ok i) : FieldsOf w i := by
  simp only [decodeMiscMem] at h
  split_ifs at h
  cases h
  exact ⟨toNat_extractLsb'_eq_slice w 31 28, toNat_extractLsb'_eq_slice w 27 24, toNat_extractLsb'_eq_slice w 23 20,
    toNat_rs1Of w, toNat_rdOf w⟩

theorem fieldsOf_decodeOpImm32 (h : decodeOpImm32 w = .ok i) : FieldsOf w i := by
  simp only [decodeOpImm32] at h
  split_ifs at h <;> cases h
  case pos.refl => exact iFields w
  all_goals exact shift5Fields w

theorem fieldsOf_decodeOp32 (h : decodeOp32 w = .ok i) : FieldsOf w i := by
  simp only [decodeOp32] at h
  split_ifs at h <;> cases h <;> exact rFields w

end Sys2Proof
end

section
/-! All that the decoder can answer, opcode by opcode: an instruction, whose fields are slices of the word, or a rejection,
whose words are those of the list of R86 (spec/30_encoding.md R83, R86). -/

open Sys2Proof.Claims Sys2Proof.Machine

namespace Sys2Proof

variable {w : InstWord} {i : Instr} {n : Nat}

/-! ### The instruction answered -/

/-- A choice of two decoders answers what one of them does, the first where its test holds. -/
theorem of_ite_eq_ok {p c : Prop} [Decidable c] {x y : Except Reject Instr} (hx : c → x = .ok i → p) (hy : y = .ok i → p)
    (h : (if c then x else y) = .ok i) : p := by
  by_cases hc : c
  · rw [if_pos hc] at h; exact hx hc h
  · rw [if_neg hc] at h; exact hy h

/-- The cases of a word that decodes, in the decoder's order (R83). -/
theorem decode_elim {P : Instr → Prop} (h : decode w = .ok i)
    (lui : opcodeOf w = 0b0110111#7 → P (.lui (rdOf w) (immUOf w)))
    (auipc : opcodeOf w = 0b0010111#7 → P (.auipc (rdOf w) (immUOf w)))
    (jal : opcodeOf w = 0b1101111#7 → P (.jal (rdOf w) (immJOf w)))
    (jalr : opcodeOf w = 0b1100111#7 → funct3Of w = 0b000#3 → P (.jalr (rdOf w) (rs1Of w) (immIOf w)))
    (branch : opcodeOf w = 0b1100011#7 → decodeBranch w = .ok i → P i)
    (load : opcodeOf w = 0b0000011#7 → decodeLoad w = .ok i → P i)
    (store : opcodeOf w = 0b0100011#7 → decodeStore w = .ok i → P i)
    (opImm : opcodeOf w = 0b0010011#7 → P (decodeOpImm w))
    (op : opcodeOf w = 0b0110011#7 → decodeOp w = .ok i → P i)
    (miscMem : opcodeOf w = 0b0001111#7 → decodeMiscMem w = .ok i → P i)
    (opImm32 : opcodeOf w = 0b0011011#7 → decodeOpImm32 w = .ok i → P i)
    (op32 : opcodeOf w = 0b0111011#7 → decodeOp32 w = .ok i → P i) : P i := by
  revert h
  refine of_ite_eq_ok ?lui (of_ite_eq_ok ?auipc (of_ite_eq_ok ?jal (of_ite_eq_ok ?jalr (of_ite_eq_ok branch (of_ite_eq_ok load
    (of_ite_eq_ok store (of_ite_eq_ok ?opImm (of_ite_eq_ok op (of_ite_eq_ok miscMem (of_ite_eq_ok opImm32
    (of_ite_eq_ok op32 nofun)))))))))))
  case lui => rintro hop ⟨⟩; exact lui hop
  case auipc => rintro hop ⟨⟩; exact auipc hop
  case jal => rintro hop ⟨⟩; exact jal hop
  case jalr => exact fun hop => of_ite_eq_ok (by rintro h3 ⟨⟩; exact jalr hop h3) nofun
  case opImm => rintro hop ⟨⟩; exact opImm hop

/-- Settles O4: the fields of each format, opcode by opcode. -/
theorem decodedFieldsAreSlicesOfTheWord : Obligations.DecodedFieldsAreSlicesOfTheWord := fun w _ h =>
  decode_elim h (fun _ => uFields w) (fun _ => uFields w) (fun _ => jFields w) (fun _ _ => iFields w)
    (fun _ => fieldsOf_decodeBranch) (fun _ => fieldsOf_decodeLoad) (fun _ => fieldsOf_decodeStore)
    (fun _ => fieldsOf_decodeOpImm w) (fun _ => fieldsOf_decodeOp) (fun _ => fieldsOf_decodeMiscMem)
    (fun _ => fieldsOf_decodeOpImm32) (fun _ => fieldsOf_decodeOp32)

/-- Settles O5: it is the fact behind the invariant of a step. -/
theorem decodedInstructionsAreWellFormed : Obligations.DecodedInstructionsAreWellFormed := fun _ _ => decode_wellFormed

/-! ### The words rejected -/

theorem slice_opcode {op : BitVec 7} (h : opcodeOf w = op) : slice w 6 0 = op.toNat := h ▸ (toNat_opcodeOf w).symm

theorem exists_decodeBranch_eq_error :
    (∃ e, decodeBranch w = .error e) ↔ slice w 14 12 = 2 ∨ slice w 14 12 = 3 := by
  rw [← toNat_funct3Of]
  simp only [decodeBranch]
  split_ifs <;> simp [*]; bv_omega

theorem exists_decodeLoad_eq_error : (∃ e, decodeLoad w = .error e) ↔ slice w 14 12 = 7 := by
  rw [← toNat_funct3Of]
  simp only [decodeLoad]
  split_ifs <;> simp [*]; bv_omega

theorem exists_decodeStore_eq_error : (∃ e, decodeStore w = .error e) ↔ 4 ≤ slice w 14 12 := by
  rw [← toNat_funct3Of]
  simp only [decodeStore]
  split_ifs <;> simp [*]; bv_omega

theorem exists_decodeMiscMem_eq_error : (∃ e, decodeMiscMem w = .error e) ↔ slice w 14 12 ≠ 0 := by
  rw [← toNat_funct3Of]
  simp only [decodeMiscMem]
  split_ifs <;> simp [*]; bv_omega

theorem exists_decodeOp_eq_error : (∃ e, decodeOp w = .error e) ↔
    ¬ (slice w 31 25 = 0 ∨ (slice w 31 25 = 0x20 ∧ (slice w 14 12 = 0 ∨ slice w 14 12 = 5))) := by
  rw [← toNat_funct3Of, ← toNat_funct7Of]
  simp only [decodeOp]
  split_ifs <;> simp [*] <;> bv_omega

theorem exists_decodeOpImm32_eq_error : (∃ e, decodeOpImm32 w = .error e) ↔
    ¬ (slice w 14 12 = 0 ∨ (slice w 14 12 = 1 ∧ slice w 31 25 = 0) ∨
      (slice w 14 12 = 5 ∧ (slice w 31 25 = 0 ∨ slice w 31 25 = 0x20))) := by
  rw [← toNat_funct3Of, ← toNat_funct7Of]
  simp only [decodeOpImm32]
  split_ifs <;> simp [*] <;> bv_omega

theorem exists_decodeOp32_eq_error : (∃ e, decodeOp32 w = .error e) ↔
    ¬ ((slice w 31 25 = 0 ∧ (slice w 14 12 = 0 ∨ slice w 14 12 = 1 ∨ slice w 14 12 = 5)) ∨
      (slice w 31 25 = 0x20 ∧ (slice w 14 12 = 0 ∨ slice w 14 12 = 5))) := by
  rw [← toNat_funct3Of, ← toNat_funct7Of]
  simp only [decodeOp32]
  split_ifs <;> simp [*] <;> bv_omega

/-- A choice of two decoders rejects where the chosen one does. -/
theorem iff_of_ite_eq_error {p c : Prop} [Decidable c] {x y : Except Reject Instr} (hx : c → ((∃ e, x = .error e) ↔ p))
    (hy : ¬ c → ((∃ e, y = .error e) ↔ p)) : (∃ e, (if c then x else y) = .error e) ↔ p := by
  by_cases hc : c
  · rw [if_pos hc]; exact hx hc
  · rw [if_neg hc]; exact hy hc

/-- In the decoder's order of the opcodes (R83), each rejection is an item of the list; the last is of no opcode in it. -/
theorem exists_decode_eq_error : (∃ e, decode w = .error e) ↔ IllegalWord w := by
  refine iff_of_ite_eq_error ?lui fun hlui => iff_of_ite_eq_error ?auipc fun hauipc => iff_of_ite_eq_error ?jal fun hjal =>
    iff_of_ite_eq_error ?jalr fun hjalr => iff_of_ite_eq_error ?branch fun hbranch => iff_of_ite_eq_error ?load fun hload =>
    iff_of_ite_eq_error ?store fun hstore => iff_of_ite_eq_error ?opImm fun hopImm => iff_of_ite_eq_error ?op fun hop =>
    iff_of_ite_eq_error ?miscMem fun hmiscMem => iff_of_ite_eq_error ?opImm32 fun hopImm32 =>
    iff_of_ite_eq_error ?op32 fun hop32 => ?other
  case lui | auipc | jal | opImm => intro h; simp [IllegalWord, slice_opcode h]
  case jalr =>
    intro h
    by_cases h3 : funct3Of w = 0b000#3
    · simp [IllegalWord, slice_opcode h, h3, ← toNat_funct3Of]
    · have hf3 : slice w 14 12 ≠ 0 := by rw [← toNat_funct3Of]; bv_omega
      simp [IllegalWord, slice_opcode h, h3, hf3]
  case branch => intro h; simp [IllegalWord, slice_opcode h, exists_decodeBranch_eq_error]
  case load => intro h; simp [IllegalWord, slice_opcode h, exists_decodeLoad_eq_error]
  case store => intro h; simp [IllegalWord, slice_opcode h, exists_decodeStore_eq_error]
  case op => intro h; simp [IllegalWord, slice_opcode h, exists_decodeOp_eq_error]
  case miscMem => intro h; simp [IllegalWord, slice_opcode h, exists_decodeMiscMem_eq_error]
  case opImm32 => intro h; simp [IllegalWord, slice_opcode h, exists_decodeOpImm32_eq_error]
  case op32 => intro h; simp [IllegalWord, slice_opcode h, exists_decodeOp32_eq_error]
  case other =>
    have hop : slice w 6 0 ∉ [0x03, 0x0F, 0x13, 0x17, 0x1B, 0x23, 0x33, 0x37, 0x3B, 0x63, 0x67, 0x6F] := by
      rw [← toNat_opcodeOf]
      simp only [List.mem_cons, List.not_mem_nil, or_false, not_or]
      bv_omega
    exact iff_of_true ⟨_, rfl⟩ (.inl hop)

/-- Settles O6. -/
theorem illegalWordsAreExactlyTheListed : Obligations.IllegalWordsAreExactlyTheListed := fun _ => exists_decode_eq_error

end Sys2Proof
end

section
/-! The decoder on given words: the 64-bit shift immediates, canonical or not (spec/30_encoding.md R87), and the spec's
examples. -/

open Sys2Proof.Claims

namespace Sys2Proof

variable {w : InstWord}

theorem decode_opImm (hop : slice w 6 0 = 0x13) : decode w = .ok (decodeOpImm w) := by
  have hop : opcodeOf w = 0b0010011#7 := (slice_eq_iff w 0 6 0x13 (by decide)).1 hop
  simp [decode, hop]

theorem ofNat_eq_of_toNat_eq {n v : Nat} {f : BitVec n} (h : f.toNat = v) : BitVec.ofNat n v = f := by
  rw [← h, BitVec.ofNat_toNat, BitVec.setWidth_eq]

/-- Bit 30 as a slice and as the decoder reads it (R87). -/
theorem toNat_getLsbD_30 (w : InstWord) : (w.getLsbD 30).toNat = slice w 30 30 := by
  rw [slice, BitVec.getLsbD]
  exact Nat.toNat_testBit w.toNat 30

/-- Settles O7: with funct3 001 or 101 the decoder looks at bit 30 and the fields alone. -/
theorem nonCanonicalShiftImmediatesAreMasked : Obligations.NonCanonicalShiftImmediatesAreMasked := by
  intro w hop
  have hf1 : slice w 14 12 = 1 ↔ funct3Of w = 0b001#3 := slice_eq_iff w 12 2 1 (by decide)
  have hf5 : slice w 14 12 = 5 ↔ funct3Of w = 0b101#3 := slice_eq_iff w 12 2 5 (by decide)
  rw [decode_opImm hop, ofNat_eq_of_toNat_eq (toNat_rdOf w), ofNat_eq_of_toNat_eq (toNat_rs1Of w),
    ofNat_eq_of_toNat_eq (toNat_shamt6Of w), ← toNat_getLsbD_30, hf1, hf5, Bool.toNat_eq_zero, Bool.toNat_eq_one]
  refine ⟨fun h1 => ?slli, fun h5 h30 => ?srli, fun h5 h30 => ?srai⟩
  case slli => rw [decodeOpImm, h1]; rfl
  case srli => rw [decodeOpImm, h5, h30]; rfl
  case srai => rw [decodeOpImm, h5, h30]; rfl

/-- Settles O8: the decoder run on the eight words. -/
theorem specExampleWordsDecode : Obligations.SpecExampleWordsDecode := by
  unfold Obligations.SpecExampleWordsDecode; decide

end Sys2Proof
end

section
/-! The decoder agrees with the table of masks and patterns: a decoded word matches its instruction's row, a word that matches
a row decodes, and a word matches one row at most (spec/30_encoding.md R84). -/

open Sys2Proof.Claims

namespace Sys2Proof

variable {w m p : InstWord} {i : Instr} {r r' : OpcodeRow} {f3 : BitVec 3} {op : BitVec 7}

/-! ### Facts of the 50 rows -/

theorem eq_of_mnemonic_eq : ∀ r ∈ opcodeTable, ∀ r' ∈ opcodeTable, r.mnemonic = r'.mnemonic → r = r' := by decide

/-- No two rows agree on the bits that both of them look at. -/
theorem eq_of_compatible : ∀ r ∈ opcodeTable, ∀ r' ∈ opcodeTable,
    r.pattern &&& r'.mask = r'.pattern &&& r.mask → r = r' := by decide

theorem eq_of_matches (hr : r ∈ opcodeTable) (hr' : r' ∈ opcodeTable) (h : w &&& r.mask = r.pattern)
    (h' : w &&& r'.mask = r'.pattern) : r = r' := by
  refine eq_of_compatible r hr r' hr' ?_
  rw [← h, ← h', BitVec.and_assoc, BitVec.and_assoc, BitVec.and_comm r.mask]

/-! ### A decoded word matches its row -/

theorem Laws.encodesItsRow : ∀ i : Instr, EncodesItsRow.Statement i
  | .addi .. => EncodesItsRow.addi ..
  | .slti .. => EncodesItsRow.slti ..
  | .sltiu .. => EncodesItsRow.sltiu ..
  | .xori .. => EncodesItsRow.xori ..
  | .ori .. => EncodesItsRow.ori ..
  | .andi .. => EncodesItsRow.andi ..
  | .slli .. => EncodesItsRow.slli ..
  | .srli .. => EncodesItsRow.srli ..
  | .srai .. => EncodesItsRow.srai ..
  | .add .. => EncodesItsRow.add ..
  | .sub .. => EncodesItsRow.sub ..
  | .sll .. => EncodesItsRow.sll ..
  | .slt .. => EncodesItsRow.slt ..
  | .sltu .. => EncodesItsRow.sltu ..
  | .xor .. => EncodesItsRow.xor ..
  | .srl .. => EncodesItsRow.srl ..
  | .sra .. => EncodesItsRow.sra ..
  | .or .. => EncodesItsRow.or ..
  | .and .. => EncodesItsRow.and ..
  | .addiw .. => EncodesItsRow.addiw ..
  | .slliw .. => EncodesItsRow.slliw ..
  | .srliw .. => EncodesItsRow.srliw ..
  | .sraiw .. => EncodesItsRow.sraiw ..
  | .addw .. => EncodesItsRow.addw ..
  | .subw .. => EncodesItsRow.subw ..
  | .sllw .. => EncodesItsRow.sllw ..
  | .srlw .. => EncodesItsRow.srlw ..
  | .sraw .. => EncodesItsRow.sraw ..
  | .lui .. => EncodesItsRow.lui ..
  | .auipc .. => EncodesItsRow.auipc ..
  | .jal .. => EncodesItsRow.jal ..
  | .jalr .. => EncodesItsRow.jalr ..
  | .beq .. => EncodesItsRow.beq ..
  | .bne .. => EncodesItsRow.bne ..
  | .blt .. => EncodesItsRow.blt ..
  | .bge .. => EncodesItsRow.bge ..
  | .bltu .. => EncodesItsRow.bltu ..
  | .bgeu .. => EncodesItsRow.bgeu ..
  | .fence .. => EncodesItsRow.fence ..
  | .lb .. => EncodesItsRow.lb ..
  | .lh .. => EncodesItsRow.lh ..
  | .lw .. => EncodesItsRow.lw ..
  | .ld .. => EncodesItsRow.ld ..
  | .lbu .. => EncodesItsRow.lbu ..
  | .lhu .. => EncodesItsRow.lhu ..
  | .lwu .. => EncodesItsRow.lwu ..
  | .sb .. => EncodesItsRow.sb ..
  | .sh .. => EncodesItsRow.sh ..
  | .sw .. => EncodesItsRow.sw ..
  | .sd .. => EncodesItsRow.sd ..

theorem mask_funct3 (h3 : funct3Of w = f3) (hop : opcodeOf w = op) : w &&& 0x0000707f#32 = place 12 f3 ||| place 0 op := by
  rw [← encodeI_fields h3 hop, Laws.EncodesItsRow.encodeI_mask]

/-- What the mask of SRLI and SRAI leaves of the bits above a shift amount (R87). -/
theorem place_and_bit30 : ∀ f6 : BitVec 6, place 26 f6 &&& 0x40000000#32 = bif f6.getLsbD 4 then 0x40000000#32 else 0#32 := by
  decide

theorem mask_bit30 (h3 : funct3Of w = f3) (hop : opcodeOf w = op) : w &&& 0x4000707f#32 =
    (bif w.getLsbD 30 then 0x40000000#32 else 0#32) ||| place 12 f3 ||| place 0 op := by
  rw [← getLsbD_funct6Of, ← place_and_bit30, ← Laws.EncodesItsRow.encodeI_mask_funct6 (shamt6 := shamt6Of w),
    encodeI_shamt6 rfl h3 hop]

/-- The row of the instruction is one that the word matches. -/
def MatchesItsRow (w : InstWord) (i : Instr) : Prop :=
  ∃ r ∈ opcodeTable, r.mnemonic = i.mnemonic ∧ w &&& r.mask = r.pattern

theorem matchesItsRow_encode (i : Instr) : MatchesItsRow (encode i) i := by
  obtain ⟨r, hr, hname, hmatch⟩ := Laws.encodesItsRow i
  exact ⟨r, hr, hname, eq_of_beq hmatch⟩

/-- The 64-bit shift immediates, canonical or not (R87). -/
theorem matchesItsRow_shift (hop : opcodeOf w = 0b0010011#7) (h3 : funct3Of w = 0b001#3 ∨ funct3Of w = 0b101#3) :
    MatchesItsRow w (decodeOpImm w) := by
  obtain h1 | h5 := h3
  · rw [decodeOpImm, h1]
    exact ⟨⟨"SLLI", 0x00001013#32, 0x0000707f#32⟩, by decide, rfl, mask_funct3 h1 hop⟩
  · rw [decodeOpImm, h5]
    cases h30 : w.getLsbD 30 with
    | false => exact ⟨⟨"SRLI", 0x00005013#32, 0x4000707f#32⟩, by decide, rfl, by rw [mask_bit30 h5 hop, h30]; rfl⟩
    | true => exact ⟨⟨"SRAI", 0x40005013#32, 0x4000707f#32⟩, by decide, rfl, by rw [mask_bit30 h5 hop, h30]; rfl⟩

/-- A canonical word is the word of its instruction, and any other is a shift immediate. -/
theorem matchesItsRow_of_decode (h : decode w = .ok i) : MatchesItsRow w i := by
  by_cases hc : CanonicalWord w
  · rw [← encode_of_decode hc h]
    exact matchesItsRow_encode i
  · rw [canonicalWord_iff, Classical.not_imp] at hc
    obtain ⟨hop, hf3⟩ := hc
    obtain rfl : decodeOpImm w = i := by simpa [decode, hop] using h
    exact matchesItsRow_shift hop (by tauto)

/-! ### A word that matches a row decodes -/

/-- A slice that the mask covers is the pattern's. -/
theorem slice_eq_of_matches {hi lo : Nat} (h : w &&& m = p) (hm : slice m hi lo = 2 ^ (hi - lo + 1) - 1) :
    slice w hi lo = slice p hi lo := by
  have hones : m.extractLsb' lo (hi - lo + 1) = .allOnes _ :=
    BitVec.eq_of_toNat_eq (by rw [toNat_extractLsb'_eq_slice, hm, BitVec.toNat_allOnes])
  rw [← toNat_extractLsb'_eq_slice, ← toNat_extractLsb'_eq_slice, ← h, BitVec.extractLsb'_and, hones, BitVec.and_allOnes]

/-- What the mask of a row covers: the opcode, and funct3 and funct7 where the decoder looks at them. -/
theorem mask_covers : ∀ r ∈ opcodeTable, slice r.mask 6 0 = 0x7F ∧
    (slice r.pattern 6 0 ∉ [0x37, 0x17, 0x6F] → slice r.mask 14 12 = 0x7) ∧
    (slice r.pattern 6 0 ∈ [0x33, 0x3B] ∨ (slice r.pattern 6 0 = 0x1B ∧ slice r.pattern 14 12 ≠ 0) →
      slice r.mask 31 25 = 0x7F) := by decide

theorem isOk_decode_pattern : ∀ r ∈ opcodeTable, (decode r.pattern).isOk = true := by decide

/-- Whether a word is illegal is a matter of its opcode, and of funct3 and funct7 where the decoder looks at them. -/
theorem illegalWord_of_fields (hop : slice w 6 0 = slice p 6 0)
    (h3 : slice p 6 0 ∉ [0x37, 0x17, 0x6F] → slice w 14 12 = slice p 14 12)
    (h7 : slice p 6 0 ∈ [0x33, 0x3B] ∨ (slice p 6 0 = 0x1B ∧ slice p 14 12 ≠ 0) → slice w 31 25 = slice p 31 25)
    (h : IllegalWord w) : IllegalWord p := by
  simp only [IllegalWord] at h ⊢
  rw [hop] at h
  obtain h | ⟨h, hf⟩ | ⟨h, hf⟩ | ⟨h, hf⟩ | ⟨h, hf⟩ | ⟨h, hf⟩ | ⟨h, hf⟩ | ⟨h, hf⟩ | ⟨h, hf⟩ := h
  case inl => exact .inl h
  all_goals grind

theorem exists_decode_of_matches (hr : r ∈ opcodeTable) (h : w &&& r.mask = r.pattern) : ∃ i, decode w = .ok i := by
  obtain ⟨hop, h3, h7⟩ := mask_covers r hr
  cases hdec : decode w with
  | ok i => exact ⟨i, rfl⟩
  | error e =>
    have hillegal : IllegalWord r.pattern := illegalWord_of_fields (slice_eq_of_matches h hop)
      (fun hc => slice_eq_of_matches h (h3 hc)) (fun hc => slice_eq_of_matches h (h7 hc))
      (exists_decode_eq_error.1 ⟨e, hdec⟩)
    obtain ⟨e', he'⟩ := exists_decode_eq_error.2 hillegal
    exact absurd (isOk_decode_pattern r hr) (by rw [he']; nofun)

/-- Settles O3: a decoded word matches the row of its instruction, a matched word decodes, and rows with a common word or
a common mnemonic are one. -/
theorem decodeAgreesWithOpcodeTable : Obligations.DecodeAgreesWithOpcodeTable := by
  refine ⟨rfl, fun w r hr => ⟨?_, fun h => ?_⟩, fun w i h => ?_, fun w r hr r' hr' => eq_of_matches hr hr'⟩
  · rintro ⟨i, hdec, hname⟩
    obtain ⟨r', hr', hname', h⟩ := matchesItsRow_of_decode hdec
    rwa [eq_of_mnemonic_eq r hr r' hr' (hname.symm.trans hname'.symm)]
  · obtain ⟨i, hdec⟩ := exists_decode_of_matches hr h
    obtain ⟨r', hr', hname, h'⟩ := matchesItsRow_of_decode hdec
    exact ⟨i, hdec, by rw [eq_of_matches hr hr' h h', hname]⟩
  · obtain ⟨r, hr, hname, -⟩ := matchesItsRow_of_decode h
    exact ⟨r, hr, hname⟩

end Sys2Proof
end

section
/-! When a step traps, and with which record: the fetch, the decoder and the range check of a data access
(spec/60_exceptions.md R200 to R208; spec/44_memory_access.md R194). -/

open Sys2Proof.Claims

namespace Sys2Proof.Machine

variable {d : Dram} {s : State} {i : Instr} {f : Fault} {w : InstWord} {n : Width}
  {rs1 : RegIdx} {imm : BitVec 12}

/-! ### Faults of the execute stage -/

/-- The record is that of a data access the instruction makes out of range (R194, R203). -/
def AccessFaults (d : Dram) (i : Instr) (s : State) (f : Fault) : Prop :=
  ∃ a n, dataAccess i s = some (a, n) ∧ inRange d a n = false ∧ f = .memoryFault s.pc (s.fetchedWord d) a n

theorem accessFaults_iff {a : Word} (h : dataAccess i s = some (a, n)) :
    AccessFaults d i s f ↔ inRange d a n = false ∧ f = .memoryFault s.pc (s.fetchedWord d) a n := by
  simp [AccessFaults, h]

/-- An instruction traps exactly when it makes an access that is out of range, and the record is that access's. -/
theorem execAt_eq_fault : execAt d i s = .fault f ↔ AccessFaults d i s f := by
  cases i with
  | lb | lh | lw | ld | lbu | lhu | lwu => exact load_eq_fault.trans (accessFaults_iff rfl).symm
  | sb | sh | sw | sd => exact store_eq_fault.trans (accessFaults_iff rfl).symm
  | _ => exact ⟨nofun, nofun⟩

theorem load_out_of_range (extend : Word → Word) (rd : RegIdx) (h : inRange d (offsetBy (s.reg rs1) imm.toInt) n = false) :
    load d n extend rd rs1 imm s = .fault (.memoryFault s.pc (s.fetchedWord d) (offsetBy (s.reg rs1) imm.toInt) n) := by
  rw [← loadAddress_eq_offsetBy] at h ⊢
  exact load_eq_fault.2 ⟨h, rfl⟩

theorem store_out_of_range (rs2 : RegIdx) (h : inRange d (offsetBy (s.reg rs1) imm.toInt) n = false) :
    store d n rs1 rs2 imm s = .fault (.memoryFault s.pc (s.fetchedWord d) (offsetBy (s.reg rs1) imm.toInt) n) := by
  rw [← storeAddress_eq_offsetBy] at h ⊢
  exact store_eq_fault.2 ⟨h, rfl⟩

/-- Settles O46: each load and store is `load` or `store` at its width, and no other instruction traps. -/
theorem dataAccessOutOfRangeFaultsAndCommitsNothing : Obligations.DataAccessOutOfRangeFaultsAndCommitsNothing :=
  atEveryDram_of_forall fun _ _ r _ _ =>
    ⟨fun h => ⟨load_out_of_range _ r h, load_out_of_range _ r h, store_out_of_range r h⟩,
      fun h => ⟨load_out_of_range _ r h, load_out_of_range _ r h, store_out_of_range r h⟩,
      fun h => ⟨load_out_of_range _ r h, load_out_of_range _ r h, store_out_of_range r h⟩,
      fun h => ⟨load_out_of_range _ r h, store_out_of_range r h⟩, fun _ _ => execAt_eq_fault.1⟩

/-! ### Faults of a step -/

/-- Settles O14: the three stages at which a step can trap, with the fetch and the access out of range. -/
theorem trapsHaveThreeOriginsAndTheirRecords : Obligations.TrapsHaveThreeOriginsAndTheirRecords := by
  refine atEveryDram_of_forall fun d s f => stepAt_eq_fault.trans (or_congr ?fetch (or_congr ?decode ?access))
  case fetch => rw [State.fetchedWord_eq_none]
  case decode => simp only [exists_and_left, exists_and_right]
  case access =>
    simp only [execAt_eq_fault, AccessFaults]
    constructor
    · rintro ⟨w, i, hw, hdec, a, n, ha, hr, rfl⟩
      exact ⟨w, i, a, n, hw, hdec, ha, hr, by rw [hw]⟩
    · rintro ⟨w, i, a, n, hw, hdec, ha, hr, rfl⟩
      exact ⟨w, i, hw, hdec, a, n, ha, hr, by rw [hw]⟩

theorem stepAt_of_illegalWord (hw : s.fetchedWord d = some w) (h : IllegalWord w) :
    stepAt d s = .fault (.illegalInstruction w s.pc) := by
  obtain ⟨e, he⟩ := exists_decode_eq_error.2 h
  exact stepAt_eq_fault.2 (.inr (.inl ⟨w, e, hw, he, rfl⟩))

/-- Only the decoder raises an IllegalInstruction, and on the word fetched. -/
theorem illegalWord_of_stepAt {w' : InstWord} {p : Word} (hw : s.fetchedWord d = some w)
    (h : stepAt d s = .fault (.illegalInstruction w' p)) : IllegalWord w := by
  obtain ⟨-, hf⟩ | ⟨v, e, hv, he, -⟩ | ⟨v, i, -, -, hexec⟩ := stepAt_eq_fault.1 h
  · cases hf
  · obtain rfl : w = v := Option.some.inj (hw.symm.trans hv)
    exact exists_decode_eq_error.1 ⟨e, he⟩
  · obtain ⟨a, n, -, -, hf⟩ := execAt_eq_fault.1 hexec
    cases hf

/-- Settles O11: the decoder's rejection, and nothing else, raises it. -/
theorem illegalWordTraps : Obligations.IllegalWordTraps :=
  atEveryDram_of_forall fun _ _ _ hw => ⟨stepAt_of_illegalWord hw, fun ⟨_, _, h⟩ => illegalWord_of_stepAt hw h⟩

/-- Settles O12: SYSTEM is no opcode of the list in item 1 of R86. -/
theorem systemInstructionsAreIllegal : Obligations.SystemInstructionsAreIllegal :=
  atEveryDram_of_forall fun _ _ _ hw hop => stepAt_of_illegalWord hw (.inl (by rw [hop]; decide))

/-- Settles O9: the third stage of the step (R205). -/
theorem stepRunsTheDecodedInstruction : Obligations.StepRunsTheDecodedInstruction :=
  atEveryDram_of_forall fun _ _ _ _ => stepAt_of_decode

/-! ### The fetch -/

/-- A fetch in range gives the little-endian value of four bytes (R46). -/
theorem State.exists_fetchedWord (h : inRange d s.pc .word = true) :
    ∃ w, s.fetchedWord d = some w ∧ w.toNat = leValue s.mem s.pc.toNat 4 := by
  refine ⟨_, State.fetchedWord_eq_some.2 ⟨h, rfl⟩, ?_⟩
  rw [BitVec.toNat_setWidth, Memory.toNat_readBytes _ _ _ (by decide)]
  exact Nat.mod_eq_of_lt (leValue_lt s.mem s.pc.toNat 4)

theorem stepAt_of_fetch_out_of_range (h : inRange d s.pc .word = false) :
    stepAt d s = .fault (.memoryFault s.pc none s.pc .word) :=
  stepAt_eq_fault.2 (.inl ⟨State.fetchedWord_eq_none.2 h, rfl⟩)

/-- Settles O10: the value of the four bytes, the first of them the lowest, or the fault of the fetch. -/
theorem fetchReadsFourBytesAtPcLittleEndian : Obligations.FetchReadsFourBytesAtPcLittleEndian := by
  refine atEveryDram_of_forall fun d s => ⟨fun h => ?_, stepAt_of_fetch_out_of_range⟩
  obtain ⟨w, hw, hval⟩ := State.exists_fetchedWord h
  have hlow : slice w 7 0 = (s.mem.byteAt s.pc.toNat).toNat := by
    have hbyte : (s.mem.byteAt s.pc.toNat).toNat < 256 := BitVec.isLt _
    simp only [slice, hval, leValue]
    omega
  exact ⟨w, hw, hval, hlow⟩

end Sys2Proof.Machine
end

section
/-! The range check, in unbounded integers and byte by byte (spec/20_memory.md R42, R43). -/

namespace Sys2Proof.Machine

variable {d : Dram} {a : Word} {n : Width}

theorem inRange_of_bytes (hd : d.Ok) (hend : a.toNat + n.bytes ≤ 2 ^ 64)
    (h : ∀ k, k < n.bytes → inRange d (a + .ofNat 64 k) .byte = true) : inRange d a n = true := by
  have hpos : 0 < n.bytes := Width.bytes_pos n
  have hfirst := h 0 hpos
  have hlast := h (n.bytes - 1) (by omega)
  have hbyte : Width.byte.bytes = 1 := rfl
  have hle : n.bytes ≤ 8 := Width.bytes_le n
  rw [inRange_iff, BitVec.toNat_add, BitVec.toNat_ofNat, hbyte] at hfirst hlast
  rw [inRange_iff]
  omega

/-- In a legal DRAM an access is in range exactly when it ends at `2^64` at the latest and each of its bytes is in range. -/
theorem inRange_iff_bytes (hd : d.Ok) : inRange d a n = true ↔ a.toNat + n.bytes ≤ 2 ^ 64 ∧
    ∀ k, k < n.bytes → inRange d (a + .ofNat 64 k) .byte = true := by
  refine ⟨fun h => ⟨?_, fun k hk => inRange_offset (k := .byte) hd h hk⟩, fun ⟨hend, h⟩ => inRange_of_bytes hd hend h⟩
  obtain ⟨-, hd, -⟩ := hd
  obtain ⟨-, hhi⟩ := (inRange_iff ..).1 h
  omega

/-- Settles O43: the check compares integers, and a legal DRAM ends at `2^64` at the latest. -/
theorem rangeCheckIsInUnboundedIntegers : Obligations.RangeCheckIsInUnboundedIntegers := by
  refine fun d a n => ⟨inRange_iff d a n, fun hd hwrap => ?_, inRange_iff_bytes, fun m => Memory.read_eq_none,
    fun m v => Memory.write_eq_none, fun s => State.fetchedWord_eq_none⟩
  rw [Bool.eq_false_iff, ne_eq, inRange_iff_bytes hd]
  exact fun ⟨hend, _⟩ => absurd hend (Nat.not_le_of_lt hwrap)

end Sys2Proof.Machine
end

section
/-! The first fetch after a load reads the head of the image (spec/70_reset_and_hazards.md R231). -/

namespace Sys2Proof.Machine

variable {p : Params}

/-- A legal DRAM has room for the first fetch. -/
theorem State.boot_inRange_pc (hp : p.dram.Ok) : inRange p.dram (State.boot p).pc .word = true := by
  obtain ⟨-, -, hsize⟩ := hp
  rw [State.boot_pc, inRange_iff, Width.bytes]
  omega

theorem leValue_four (m : Memory) (a : Nat) : leValue m a 4 = (m.byteAt (a + 0)).toNat + 256 * (m.byteAt (a + 1)).toNat +
    256 ^ 2 * (m.byteAt (a + 2)).toNat + 256 ^ 3 * (m.byteAt (a + 3)).toNat := by
  simp only [leValue, Nat.add_zero, Nat.add_assoc, Nat.reduceAdd]
  ring

/-- Settles O20: the fetch is at `DRAM_BASE`, where the boot memory holds the image. -/
theorem firstInstructionIsTheImagesFirstWord : Obligations.FirstInstructionIsTheImagesFirstWord := by
  intro p b0 b1 b2 b3 image rest hp himage
  obtain ⟨w, hw, hval⟩ := State.exists_fetchedWord (State.boot_inRange_pc hp)
  have hbyte (k : Nat) (hk : k < 4) :
      (State.boot p).mem.byteAt (p.dram.base.toNat + k) = imageContents (b0 :: b1 :: b2 :: b3 :: image) rest k := by
    obtain ⟨-, -, hsize⟩ := hp
    rw [State.boot_byteAt (by omega), himage]
  refine ⟨w, hw, ?_⟩
  rw [hval, leValue_four, State.boot_pc, hbyte 0 (by decide), hbyte 1 (by decide), hbyte 2 (by decide), hbyte 3 (by decide)]
  rfl

end Sys2Proof.Machine
end

section
/-! An instruction's `rd` field decides which register it writes, and nothing else (spec/10_state.md R22). -/

namespace Sys2Proof.Machine

variable {d : Dram} {i : Instr} {s t : State} {rd : RegIdx}

theorem dataAccess_setDest : dataAccess (setDest rd i) s = dataAccess i s := by
  cases i <;> rfl

theorem execAt_setDest_eq_fault {f : Fault} : execAt d (setDest rd i) s = .fault f ↔ execAt d i s = .fault f := by
  rw [execAt_eq_fault, execAt_eq_fault, AccessFaults, AccessFaults, dataAccess_setDest]

/-- An instruction with an `rd` field commits one value and one pc, whatever register the field names. -/
theorem exists_execAt_setDest_eq_next {r : RegIdx} (hd : destOf i = some r) (h : execAt d i s = .next t) :
    ∃ v target, t = (s.setReg r v).setPc target ∧
      ∀ rd, execAt d (setDest rd i) s = .next ((s.setReg rd v).setPc target) := by
  cases i with
  | lb | lh | lw | ld | lbu | lhu | lwu =>
    cases hd
    obtain ⟨hr, rfl⟩ := load_eq_next.1 h
    exact ⟨_, _, rfl, fun rd => load_eq_next.2 ⟨hr, rfl⟩⟩
  | beq | bne | blt | bge | bltu | bgeu | fence | sb | sh | sw | sd => cases hd
  | _ => cases hd; cases h; exact ⟨_, _, rfl, fun _ => rfl⟩

/-- Settles O23: with `rd` = x0 the commit drops its value, and the value and the pc committed are those of any other `rd`. -/
theorem writesToX0AreDiscarded : Obligations.WritesToX0AreDiscarded := by
  refine atEveryDram_of_forall fun d => ⟨State.reg_zero, fun s => State.setReg_zero s, fun i s rd hd =>
    ⟨fun f => execAt_setDest_eq_fault.symm, fun t h => ?_⟩⟩
  obtain ⟨v, target, rfl, hset⟩ := exists_execAt_setDest_eq_next hd h
  rw [State.setReg_zero]
  exact ⟨fun _ => rfl, _, hset rd, rfl, by simp, fun r hr => by simp [hr]⟩

end Sys2Proof.Machine
end

section
/-! Runs: the first trap ends a run, and a run of a fixed point takes all its steps (spec/60_exceptions.md R207;
spec/70_reset_and_hazards.md R233). -/

namespace Sys2Proof.Machine

variable {step : Stepper} {d : Dram} {s t b : State} {f : Fault} {k m : Nat}

theorem run_succ_of_next (h : step s = .next t) : run step (k + 1) s = run step k t := by rw [run, h]

theorem run_succ_of_fault (h : step s = .fault f) : run step (k + 1) s = .firstTrap f s := by rw [run, h]

/-- All that a run of at least one step that ends in a trap can do first. -/
theorem run_succ_eq_firstTrap (h : run step (k + 1) s = .firstTrap f b) :
    (step s = .fault f ∧ b = s) ∨ ∃ t, step s = .next t ∧ run step k t = .firstTrap f b := by
  rw [run] at h
  cases hs : step s with
  | next t => rw [hs] at h; exact .inr ⟨t, rfl, h⟩
  | fault g => rw [hs] at h; cases h; exact .inl ⟨rfl, rfl⟩
  | refused r => rw [hs] at h; cases h

theorem step_eq_fault_of_run (h : run step k s = .firstTrap f b) : step b = .fault f := by
  induction k generalizing s with
  | zero => cases h
  | succ k ih =>
    obtain ⟨hs, rfl⟩ | ⟨t, -, ht⟩ := run_succ_eq_firstTrap h
    · exact hs
    · exact ih ht

/-- The state before the trap is reached by fewer steps, none of which traps. -/
theorem exists_run_eq_steps (h : run step k s = .firstTrap f b) : ∃ j, j < k ∧ run step j s = .steps b := by
  induction k generalizing s with
  | zero => cases h
  | succ k ih =>
    obtain ⟨-, rfl⟩ | ⟨t, hs, ht⟩ := run_succ_eq_firstTrap h
    · exact ⟨0, k.succ_pos, rfl⟩
    · obtain ⟨j, hj, hrun⟩ := ih ht
      exact ⟨j + 1, Nat.succ_lt_succ hj, (run_succ_of_next hs).trans hrun⟩

/-- A longer run ends at the same trap. -/
theorem run_eq_firstTrap_of_le (h : run step k s = .firstTrap f b) (hm : k ≤ m) : run step m s = .firstTrap f b := by
  induction k generalizing s m with
  | zero => cases h
  | succ k ih =>
    obtain ⟨m, rfl⟩ : ∃ m', m = m' + 1 := Nat.exists_eq_add_one.2 (by omega)
    obtain ⟨hs, rfl⟩ | ⟨t, hs, ht⟩ := run_succ_eq_firstTrap h
    · exact run_succ_of_fault hs
    · exact (run_succ_of_next hs).trans (ih ht (Nat.le_of_succ_le_succ hm))

/-- Settles O25: whatever the step function is, by induction on the length of the run. -/
theorem aRunStopsAtItsFirstTrap : Obligations.ARunStopsAtItsFirstTrap :=
  atEveryDram_of_forall fun _ _ _ _ _ h =>
    ⟨step_eq_fault_of_run h, exists_run_eq_steps h, fun _ => run_eq_firstTrap_of_le h⟩

theorem run_eq_steps_of_fixed (h : step s = .next s) (k : Nat) : run step k s = .steps s := by
  induction k with
  | zero => rfl
  | succ k ih => rw [run_succ_of_next h, ih]

/-- Settles O26: `jal x0, 0` decodes to a jump to its own pc that writes no register. -/
theorem selfLoopIsAFixedPoint : Obligations.SelfLoopIsAFixedPoint := by
  refine atEveryDram_of_forall fun d s k hw => run_eq_steps_of_fixed ?_ k
  have hdec : decode 0x0000006F#32 = .ok (.jal 0#5 0#21) := by decide
  have htarget : jalTarget 0#21 s = s.pc := BitVec.add_zero s.pc
  rw [stepAt_of_decode hw hdec, execAt, execJal, commitRegPc, htarget, State.setReg_zero]
  rfl

end Sys2Proof.Machine
end

section
/-! The values that addition, subtraction, the bitwise operations and the left shifts commit: exact integer results modulo
`2^64`, and bit by bit (spec/40_arith_logic.md R100 to R120). -/

open Sys2Proof.Claims

namespace Sys2Proof.Machine

variable {s : State} {i : Instr} {exec : Executor} {P Q : State → Prop}

/-! ### Completing with other effects -/

theorem Completes.mono (hP : Completes exec i s P) (hPQ : ∀ t, P t → Q t) : Completes exec i s Q := by
  obtain ⟨t, ht, hp⟩ := hP
  exact ⟨t, ht, hPQ t hp⟩

/-- An instruction answers one next state, so what completes with either effect completes with both. -/
theorem Completes.and (hP : Completes exec i s P) (hQ : Completes exec i s Q) :
    Completes exec i s fun t => P t ∧ Q t := by
  obtain ⟨t, ht, hp⟩ := hP
  obtain ⟨u, hu, hq⟩ := hQ
  obtain rfl : t = u := Host.Outcome.next.inj (ht.symm.trans hu)
  exact ⟨t, ht, hp, hq⟩

/-! ### Addition and subtraction -/

theorem add_eq_ofInt_toInt (a b : Word) : a + b = .ofInt 64 (a.toInt + b.toInt) := by
  rw [BitVec.ofInt_add, BitVec.ofInt_toInt, BitVec.ofInt_toInt]

theorem ofInt_toNat (a : Word) : BitVec.ofInt 64 (a.toNat : Int) = a := by
  rw [BitVec.ofInt_natCast, BitVec.ofNat_toNat, BitVec.setWidth_eq]

theorem add_eq_ofInt_toNat (a b : Word) : a + b = .ofInt 64 ((a.toNat : Int) + b.toNat) := by
  rw [BitVec.ofInt_add, ofInt_toNat, ofInt_toNat]

theorem sub_eq_ofInt_toInt (a b : Word) : a - b = .ofInt 64 (a.toInt - b.toInt) := by
  rw [Int.sub_eq_add_neg, BitVec.ofInt_add, BitVec.ofInt_neg, BitVec.ofInt_toInt, BitVec.ofInt_toInt, BitVec.sub_eq_add_neg]

theorem sub_eq_ofInt_toNat (a b : Word) : a - b = .ofInt 64 ((a.toNat : Int) - b.toNat) := by
  rw [Int.sub_eq_add_neg, BitVec.ofInt_add, BitVec.ofInt_neg, ofInt_toNat, ofInt_toNat, BitVec.sub_eq_add_neg]

/-- Settles O27: each of the three commits a sum or difference of words, which is the exact one modulo `2^64` in the signed
and in the unsigned reading. -/
theorem addAndSubtractWrapModulo64Bits : Obligations.AddAndSubtractWrapModulo64Bits := by
  intro s rd rs1 rs2 imm
  have hsigned : s.reg rs1 + immI imm = .ofInt 64 ((s.reg rs1).toInt + imm.toInt) := by
    rw [add_eq_ofInt_toInt, toInt_immI]
  exact ⟨.and (completes_of_exec_eq_commitReg rfl hsigned)
      (completes_of_exec_eq_commitReg rfl (add_eq_ofInt_toNat ..)),
    .and (completes_of_exec_eq_commitReg rfl (add_eq_ofInt_toInt ..))
      (completes_of_exec_eq_commitReg rfl (add_eq_ofInt_toNat ..)),
    .and (completes_of_exec_eq_commitReg rfl (sub_eq_ofInt_toInt ..))
      (completes_of_exec_eq_commitReg rfl (sub_eq_ofInt_toNat ..))⟩

/-! ### Bitwise operations -/

/-- The bits of an I immediate: its own below 12 and its sign bit above (R74). -/
theorem getLsbD_immI (imm : BitVec 12) {k : Nat} (hk : k < 64) :
    (immI imm).getLsbD k = if k < 12 then imm.getLsbD k else imm.getLsbD 11 := by
  rw [immI, BitVec.getLsbD_signExtend, decide_eq_true hk, Bool.true_and]
  rfl

theorem completes_of_bits {rd : RegIdx} {v : Word} {bit : Nat → Bool} (h : exec i s = commitReg rd v s)
    (hv : ∀ k, k < 64 → v.getLsbD k = bit k) :
    Completes exec i s fun t => ∃ v, (∀ k, k < 64 → v.getLsbD k = bit k) ∧ RegStep s t rd v :=
  ⟨_, h, v, hv, regStep_of_commitReg rfl⟩

/-- Settles O29: the bits of a bitwise operation are the operation on the bits of its operands. -/
theorem logicIsBitwiseOnSignExtendedOperands : Obligations.LogicIsBitwiseOnSignExtendedOperands := by
  intro s rd rs1 rs2 imm
  refine ⟨completes_of_bits rfl fun k hk => ?_, completes_of_bits rfl fun k hk => ?_, completes_of_bits rfl fun k hk => ?_,
    completes_of_bits rfl fun k _ => BitVec.getLsbD_xor, completes_of_bits rfl fun k _ => BitVec.getLsbD_or,
    completes_of_bits rfl fun k _ => BitVec.getLsbD_and⟩
  · rw [BitVec.getLsbD_xor, getLsbD_immI imm hk]
  · rw [BitVec.getLsbD_or, getLsbD_immI imm hk]
  · rw [BitVec.getLsbD_and, getLsbD_immI imm hk]

/-! ### Left shifts -/

/-- The left shift is the product with a power of two. -/
theorem shiftLeft_eq_ofNat_mul (a : Word) (n : Nat) : a <<< n = .ofNat 64 (a.toNat * 2 ^ n) := by
  rw [← Nat.shiftLeft_eq]; rfl

/-- Settles O30: both commit the product with `2^n`, and a register amount is `x[rs2] mod 64`. -/
theorem shiftLeftMultipliesByAPowerOfTwo : Obligations.ShiftLeftMultipliesByAPowerOfTwo := by
  intro s rd rs1 rs2 shamt
  rw [← shiftAmount6_eq]
  exact ⟨completes_of_exec_eq_commitReg rfl (shiftLeft_eq_ofNat_mul ..),
    completes_of_exec_eq_commitReg rfl (shiftLeft_eq_ofNat_mul ..)⟩

end Sys2Proof.Machine
end

section
/-! The values the word family commits: exact integer results reduced to the signed 32-bit range (spec/41_word_ops.md R130 to
R141). -/

open Sys2Proof.Claims

namespace Sys2Proof.Machine

/-! ### Sums and differences -/

/-- A word result is the signed reading of its 32 bits (R139). -/
theorem sextWord_eq_ofInt {r : BitVec 32} {z : Int} (h : r.toInt = z) : sextWord r = .ofInt 64 z := by
  subst h; rfl

theorem toInt_lowWord (a : Word) : (lowWord a).toInt = a.toInt.bmod (2 ^ 32) := by
  rw [lowWord, BitVec.toInt_setWidth, BitVec.toInt_eq_toNat_bmod, Int.bmod_bmod_of_dvd (by decide)]

/-- The word result of an exact integer: the integer reduced to the signed 32-bit range (R139, R140). -/
theorem sextWord_lowWord_ofInt (z : Int) : sextWord (lowWord (.ofInt 64 z)) = .ofInt 64 (z.bmod (2 ^ 32)) := by
  refine sextWord_eq_ofInt ?_
  rw [toInt_lowWord, BitVec.toInt_ofInt, Int.bmod_bmod_of_dvd (by decide)]

/-- Settles O33: each of the three commits the word result of an exact sum or difference. -/
theorem wordAddAndSubtractWrapModulo32Bits : Obligations.WordAddAndSubtractWrapModulo32Bits := by
  intro s rd rs1 rs2 imm
  refine ⟨completes_of_exec_eq_commitReg rfl ?addiw, completes_of_exec_eq_commitReg rfl ?addw,
    completes_of_exec_eq_commitReg rfl ?subw⟩
  case addiw => rw [add_eq_ofInt_toInt, toInt_immI, sextWord_lowWord_ofInt]
  case addw => rw [add_eq_ofInt_toInt, sextWord_lowWord_ofInt]
  case subw => rw [sub_eq_ofInt_toInt, sextWord_lowWord_ofInt]

/-! ### Shifts -/

/-- The amount of a register word shift is the register modulo 32 (R141). -/
theorem shiftAmount5_eq (a : Word) : shiftAmount5 a = a.toNat % 32 := BitVec.toNat_setWidth 5 a

theorem sextWord_shiftLeft (a : Word) (n : Nat) :
    sextWord (lowWord a <<< n) = .ofInt 64 (Int.bmod (a.toNat * 2 ^ n) (2 ^ 32)) := by
  have hlow : lowWord a <<< n = lowWord (.ofInt 64 (a.toNat * 2 ^ n : Nat)) := by
    rw [BitVec.ofInt_natCast, ← shiftLeft_eq_ofNat_mul, lowWord, lowWord, BitVec.setWidth_shiftLeft_of_le (by decide)]
  rw [hlow, sextWord_lowWord_ofInt, Nat.cast_mul, Nat.cast_pow, Nat.cast_ofNat]

/-- Settles O34: both commit the word result of the product with `2^n`. -/
theorem wordShiftLeftWrapsModulo32Bits : Obligations.WordShiftLeftWrapsModulo32Bits := by
  intro s rd rs1 rs2 shamt
  rw [← shiftAmount5_eq]
  exact ⟨completes_of_exec_eq_commitReg rfl (sextWord_shiftLeft ..),
    completes_of_exec_eq_commitReg rfl (sextWord_shiftLeft ..)⟩

/-- The logical right shift divides the unsigned low word. -/
theorem sextWord_ushiftRight (a : Word) (n : Nat) :
    sextWord (lowWord a >>> n) = .ofInt 64 (Int.bmod (a.toNat % 2 ^ 32 / 2 ^ n : Nat) (2 ^ 32)) := by
  refine sextWord_eq_ofInt ?_
  rw [BitVec.toInt_eq_toNat_bmod, BitVec.toNat_ushiftRight, Nat.shiftRight_eq_div_pow, lowWord, BitVec.toNat_setWidth]

/-- The arithmetic right shift divides the signed low word. -/
theorem sextWord_sshiftRight (a : Word) (n : Nat) :
    sextWord ((lowWord a).sshiftRight n) = .ofInt 64 (Int.fdiv (Int.bmod (a.toNat % 2 ^ 32 : Nat) (2 ^ 32)) (2 ^ n)) := by
  refine sextWord_eq_ofInt ?_
  rw [BitVec.toInt_sshiftRight, BitVec.toInt_eq_toNat_bmod, lowWord, BitVec.toNat_setWidth, Int.shiftRight_eq_div_pow,
    Int.fdiv_eq_ediv_of_nonneg _ (by positivity), Nat.cast_pow, Nat.cast_ofNat]

/-- Settles O35: each of the four commits the sign extension of a quotient of the low word. -/
theorem wordShiftRightActsOnTheLowWord : Obligations.WordShiftRightActsOnTheLowWord := by
  intro s rd rs1 rs2 shamt
  rw [← shiftAmount5_eq]
  exact ⟨completes_of_exec_eq_commitReg rfl (sextWord_ushiftRight ..),
    completes_of_exec_eq_commitReg rfl (sextWord_ushiftRight ..),
    completes_of_exec_eq_commitReg rfl (sextWord_sshiftRight ..),
    completes_of_exec_eq_commitReg rfl (sextWord_sshiftRight ..)⟩

end Sys2Proof.Machine
end

section
/-! The upper immediates: the 20-bit field times 4096, as a signed value (spec/30_encoding.md R77; spec/42_upper_immediate.md
R150 to R152). -/

open Sys2Proof.Claims

namespace Sys2Proof.Machine

variable {s : State}

theorem toInt_immU (imm : BitVec 20) : (immU imm).toInt = imm.toInt * 4096 := by
  have himm : (imm.setWidth 32 <<< 12).toNat = imm.toNat * 2 ^ 12 := toNat_place (by decide) rfl
  rw [immU, BitVec.toInt_signExtend_of_le (by decide), BitVec.toInt_eq_toNat_cond, BitVec.toInt_eq_toNat_cond, himm]
  split <;> split <;> omega

theorem immU_eq_ofInt (imm : BitVec 20) : immU imm = .ofInt 64 (imm.toInt * 4096) := by
  rw [← toInt_immU, BitVec.ofInt_toInt]

theorem toNat_ofInt_mul_4096 (z : Int) : (BitVec.ofInt 64 (z * 4096)).toNat % 4096 = 0 := by
  rw [BitVec.toNat_ofInt]
  omega

/-- Settles O37: LUI commits the immediate, of which the low 12 bits are zero, and AUIPC its sum with pc. -/
theorem upperImmediatesAreSignExtendedFromBit31 : Obligations.UpperImmediatesAreSignExtendedFromBit31 := by
  intro s rd imm
  have hauipc : s.pc + immU imm = offsetBy s.pc (imm.toInt * 4096) := by
    rw [add_eq_ofInt_toInt, toInt_immU, offsetBy]
  refine ⟨⟨_, rfl, immU_eq_ofInt imm ▸ regStep_of_commitReg rfl, ?_⟩, completes_of_exec_eq_commitReg rfl hauipc⟩
  by_cases hrd : rd = 0#5
  · rw [hrd, State.reg_zero]; rfl
  · rw [reg_of_commitReg rfl hrd, immU_eq_ofInt, toNat_ofInt_mul_4096]

end Sys2Proof.Machine
end

section
/-! Jumps, branches and FENCE: the link, the target and what stays as it was, said for any target
(spec/43_control_flow.md R160 to R173). -/

open Sys2Proof.Claims

namespace Sys2Proof.Machine

variable {d : Dram} {s t : State} {i : Instr} {rd : RegIdx} {exec : Executor} {a v : Word} {w : InstWord}

/-! ### Targets -/

theorem jalTarget_eq_offsetBy (imm : BitVec 21) (s : State) : jalTarget imm s = offsetBy s.pc imm.toInt :=
  add_signExtend_eq_offsetBy ..

theorem branchTarget_eq_offsetBy (imm : BitVec 13) (s : State) : branchTarget imm s = offsetBy s.pc imm.toInt :=
  add_signExtend_eq_offsetBy ..

/-- The mask of R161 clears bit 0 and keeps every other bit. -/
theorem toNat_and_mask (a : Word) : (a &&& 0xFFFFFFFFFFFFFFFE#64).toNat = a.toNat / 2 * 2 := by
  have hmod : (a.toNat &&& 0xFFFFFFFFFFFFFFFE) % 2 = 0 := (Nat.and_mod_two_pow (n := 1)).trans (Nat.and_zero _)
  have hdiv : (a.toNat &&& 0xFFFFFFFFFFFFFFFE) / 2 = a.toNat / 2 :=
    Nat.and_div_two.trans (Nat.and_two_pow_sub_one_of_lt_two_pow (n := 63) (by omega))
  rw [BitVec.toNat_and]
  change a.toNat &&& 0xFFFFFFFFFFFFFFFE = _
  omega

theorem toNat_jalrTarget (rs1 : RegIdx) (imm : BitVec 12) (s : State) :
    ((jalrTarget rs1 imm s).toNat : Int) = ((s.reg rs1).toInt + imm.toInt) % 2 ^ 64 / 2 * 2 := by
  have hsum : ((s.reg rs1 + immI imm).toNat : Int) = ((s.reg rs1).toInt + imm.toInt) % 2 ^ 64 := by
    rw [toNat_eq_toInt_emod, BitVec.toInt_add, toInt_immI]
    exact Int.bmod_emod
  rw [jalrTarget, toNat_and_mask, ← hsum]
  omega

/-! ### JAL and JALR -/

/-- An instruction whose meaning commits a register and a pc changes these two and nothing else. -/
theorem completes_of_exec_eq_commitRegPc {target : Word} (h : exec i s = commitRegPc rd v target s) :
    Completes exec i s fun t => WritesReg s t rd v ∧ SameMemory s t ∧ t.pc = target :=
  ⟨_, h, fun r => State.reg_setReg s rd r v, fun b => by simp, rfl⟩

/-- Settles O38: JAL commits its link and its target. -/
theorem jalLinksAndJumpsRelativeToItsOwnPc : Obligations.JalLinksAndJumpsRelativeToItsOwnPc := by
  intro s rd imm
  rw [offsetBy_four, ← jalTarget_eq_offsetBy]
  exact completes_of_exec_eq_commitRegPc rfl

/-- Settles O39: JALR commits its link and its target, both of the state before. -/
theorem jalrLinksAndJumpsThroughTheOldRegister : Obligations.JalrLinksAndJumpsThroughTheOldRegister := by
  intro s rd rs1 imm
  rw [offsetBy_four, ← toNat_jalrTarget]
  exact Completes.mono (completes_of_exec_eq_commitRegPc rfl) fun t ⟨hreg, hmem, hpc⟩ => ⟨hreg, hmem, by rw [hpc]⟩

/-! ### Branches and FENCE -/

theorem geSigned_iff (a b : Word) : geSigned a b = true ↔ a.toInt ≥ b.toInt := by
  rw [geSigned, Bool.not_eq_true', Bool.eq_false_iff, ne_eq, ltSigned_iff, Int.not_lt]

theorem geUnsigned_iff (a b : Word) : geUnsigned a b = true ↔ a.toNat ≥ b.toNat := by
  rw [geUnsigned, Bool.not_eq_true', Bool.eq_false_iff, ne_eq, ltUnsigned_iff, Nat.not_lt]

/-- An instruction whose meaning commits a pc alone changes nothing else. -/
theorem completes_of_exec_eq_commitPc {target : Word} (h : exec i s = commitPc target s) :
    Completes exec i s fun t => SameRegs s t ∧ SameMemory s t ∧ t.pc = target :=
  ⟨_, h, fun _ => rfl, fun _ => rfl, rfl⟩

/-- An instruction whose meaning is a branch on a test that decides `c` (R173). -/
theorem branchStep_of_exec_eq_branch {taken : Bool} {imm : BitVec 13} {c : Prop} (h : exec i s = branch taken imm s)
    (hc : taken = true ↔ c) : Completes exec i s fun t => BranchStep s t imm c := by
  obtain ⟨t, ht, hreg, hmem, hpc⟩ := completes_of_exec_eq_commitPc h
  refine ⟨t, ht, hreg, hmem, fun hyes => ?_, fun hno => ?_⟩
  · rw [hpc, if_pos (hc.2 hyes), branchTarget_eq_offsetBy]
  · rw [hpc, if_neg (mt hc.1 hno), offsetBy_four]

/-- Settles O40: each of the six is a branch on the test of its comparison. -/
theorem branchesCompareAsTheirMnemonicsSay : Obligations.BranchesCompareAsTheirMnemonicsSay := fun _ _ _ _ =>
  ⟨branchStep_of_exec_eq_branch rfl beq_iff_eq, branchStep_of_exec_eq_branch rfl bne_iff_ne,
    branchStep_of_exec_eq_branch rfl (ltSigned_iff ..), branchStep_of_exec_eq_branch rfl (geSigned_iff ..),
    branchStep_of_exec_eq_branch rfl (ltUnsigned_iff ..), branchStep_of_exec_eq_branch rfl (geUnsigned_iff ..)⟩

/-- The effect of FENCE, in the step as in `exec`. -/
theorem fence_completes (exec : Executor) (h : exec i s = commitPc s.nextPc s) :
    Completes exec i s fun t => SameRegs s t ∧ SameMemory s t ∧ t.pc = offsetBy s.pc 4 := by
  rw [offsetBy_four]
  exact completes_of_exec_eq_commitPc h

/-- The opcode and funct3 of FENCE are all that the decoder looks at (R85). -/
theorem exists_decode_fence (hop : slice w 6 0 = 0x0F) (h3 : slice w 14 12 = 0) :
    ∃ fm pred succ rs1 rd, decode w = .ok (.fence fm pred succ rs1 rd) := by
  have hop : opcodeOf w = 0b0001111#7 := (slice_eq_iff w 0 6 0x0F (by decide)).1 hop
  have h3 : funct3Of w = 0b000#3 := (slice_eq_iff w 12 2 0 (by decide)).1 h3
  exact ⟨_, _, _, _, _, by rw [decode, decodeMiscMem, hop, h3]; rfl⟩

/-- Settles O41: a word of that opcode and funct3 decodes to FENCE, which commits `pc + 4` alone. -/
theorem fenceOnlyAdvancesPc : Obligations.FenceOnlyAdvancesPc := by
  refine ⟨fun s fm pred succ rs1 rd => fence_completes _ rfl, atEveryDram_of_forall fun d s w hw hop h3 => ?_⟩
  obtain ⟨fm, pred, succ, rs1, rd, hdec⟩ := exists_decode_fence hop h3
  rw [stepAt_of_decode hw hdec]
  exact fence_completes (execAt d) rfl

/-! ### The step after a jump -/

/-- What a jump or taken branch to `a` leaves behind: the target, and its link if it has one (R160, R161, R173). -/
def JumpStep (i : Instr) (s t : State) (a : Word) : Prop :=
  t.pc = a ∧ SameMemory s t ∧ (∀ rd, destOf i = some rd → WritesReg s t rd (offsetBy s.pc 4)) ∧
    (destOf i = none → SameRegs s t)

/-- A jump with a link, at its target. -/
theorem jumpStep_of_exec_eq_commitRegPc (h : exec i s = commitRegPc rd s.nextPc a s) (hd : destOf i = some rd) :
    Completes exec i s fun t => JumpStep i s t a := by
  obtain ⟨t, ht, hreg, hmem, hpc⟩ := completes_of_exec_eq_commitRegPc h
  refine ⟨t, ht, hpc, hmem, fun r hr => ?_, fun hnone => ?_⟩
  · obtain rfl : rd = r := Option.some.inj (hd.symm.trans hr)
    rwa [offsetBy_four]
  · rw [hd] at hnone; cases hnone

/-- A branch that is taken. -/
theorem jumpStep_of_exec_eq_branch {taken : Bool} {imm : BitVec 13} (h : exec i s = branch taken imm s) (htaken : taken = true)
    (hd : destOf i = none) : Completes exec i s fun t => JumpStep i s t (offsetBy s.pc imm.toInt) := by
  obtain ⟨t, ht, hreg, hmem, hpc, -⟩ := branchStep_of_exec_eq_branch h Iff.rfl
  refine ⟨t, ht, hpc htaken, hmem, fun r hr => ?_, fun _ => hreg⟩
  rw [hd] at hr; cases hr

theorem JumpsTo.completes (h : JumpsTo i s a) : Completes (execAt d) i s fun t => JumpStep i s t a := by
  obtain ⟨rd, imm, rfl, rfl⟩ | ⟨rd, rs1, imm, rfl, ha⟩ | ⟨rs1, rs2, imm, rfl, hbranch⟩ := h
  · rw [← jalTarget_eq_offsetBy]
    exact jumpStep_of_exec_eq_commitRegPc rfl rfl
  · obtain rfl : jalrTarget rs1 imm s = a :=
      BitVec.eq_of_toNat_eq (Int.ofNat.inj ((toNat_jalrTarget rs1 imm s).trans ha.symm))
    exact jumpStep_of_exec_eq_commitRegPc rfl rfl
  · obtain ⟨rfl, hc⟩ | ⟨rfl, hc⟩ | ⟨rfl, hc⟩ | ⟨rfl, hc⟩ | ⟨rfl, hc⟩ | ⟨rfl, hc⟩ := hbranch
    · exact jumpStep_of_exec_eq_branch rfl (beq_iff_eq.2 hc) rfl
    · exact jumpStep_of_exec_eq_branch rfl (bne_iff_ne.2 hc) rfl
    · exact jumpStep_of_exec_eq_branch rfl ((ltSigned_iff ..).2 hc) rfl
    · exact jumpStep_of_exec_eq_branch rfl ((geSigned_iff ..).2 hc) rfl
    · exact jumpStep_of_exec_eq_branch rfl ((ltUnsigned_iff ..).2 hc) rfl
    · exact jumpStep_of_exec_eq_branch rfl ((geUnsigned_iff ..).2 hc) rfl

/-- A step fetches and decodes the four bytes at pc, at any alignment (R205). -/
theorem stepAt_of_inRange (h : inRange d t.pc .word = true) : ∃ w, w.toNat = leValue t.mem t.pc.toNat 4 ∧
    (∀ j, decode w = .ok j → stepAt d t = execAt d j t) ∧
    ∀ e, decode w = .error e → stepAt d t = .fault (.illegalInstruction w t.pc) := by
  obtain ⟨w, hw, hval⟩ := State.exists_fetchedWord h
  exact ⟨w, hval, fun j => stepAt_of_decode hw, fun e he => stepAt_eq_fault.2 (.inr (.inl ⟨w, e, hw, he, rfl⟩))⟩

/-- Settles O42: the jump commits its target as it is, and the step after it does at that pc what any step does at its own. -/
theorem noJumpTargetIsChecked : Obligations.NoJumpTargetIsChecked := by
  refine atEveryDram_of_forall fun d i s a h => ?_
  obtain ⟨t, ht, rfl, hmem, hlink, hregs⟩ := JumpsTo.completes (d := d) h
  exact ⟨t, ht, rfl, hmem, hlink, hregs, stepAt_of_fetch_out_of_range, stepAt_of_inRange⟩

end Sys2Proof.Machine
end
